-- ==== Sys2Proof/Word.lean ====
section
/-! DEFINITION. Word.lean: the word types of config_mirea-56 and the names of a word's fields
(spec/30_encoding.md R60, R61). -/

namespace Sys2Proof

/-- One byte of the instruction stream (20_memory.md R40). -/
abbrev Byte := BitVec 8

/-- An instruction word: an unsigned 56-bit value (30_encoding.md R60). -/
abbrev InstrWord := BitVec 56

/-- The names a fault gives to the fields of an instruction word (10_state.md R25). -/
inductive FieldName where
  | opcode
  | B
  | C
  | D
deriving DecidableEq, Repr

end Sys2Proof
end

