-- ==== Sys2Proof/Config.lean ====
section
/-! DEFINITION. Config.lean: the implementation parameters (spec/00_scope.md R5) and the fixed field
bounds. The machine has no undefined value, so this file holds no free value. -/

namespace Sys2Proof

/-- `OPW`, the width of the opcode field: 4 is normative, 5 is admitted only as the named
alternative (00_scope.md R5; 90_conflicts.md C1). -/
inductive OpWidth where
  | four
  | five
deriving DecidableEq, Repr

/-- `OPW` as a number of bits. -/
def OpWidth.bits : OpWidth → Nat
  | .four => 4
  | .five => 5

/-- The other of the two admitted widths. -/
def OpWidth.other : OpWidth → OpWidth
  | .four => .five
  | .five => .four

/-- `CELL_W`, the width of one data cell: a number of bits, or `∞` (00_scope.md R5). -/
inductive CellWidth where
  | finite (bits : Nat)
  | unbounded
deriving DecidableEq, Repr

/-- "Any finite value must be at least 19" (00_scope.md R5). -/
def CellWidth.wf : CellWidth → Bool
  | .finite bits => decide (19 ≤ bits)
  | .unbounded => true

/-- The parameters a step reads: `OPW`, `CELL_W` and `RSVD_CHECK` (00_scope.md R5). They are fixed
when the hardware is built (10_state.md R28). -/
structure Config where
  opw : OpWidth
  cellW : CellWidth
  rsvdCheck : Bool
deriving DecidableEq, Repr

/-- The normative instance: `OPW = 4`, `CELL_W = 64`, `RSVD_CHECK = off` (00_scope.md R5). -/
def Config.normative : Config := { opw := .four, cellW := .finite 64, rsvdCheck := false }

/-- `MEM_CAP` and `STREAM_CAP`, the OPEN parameters (00_scope.md R5): "an argument of the model".
Only `Start` reads them (40_execution.md R100). Log entry 3. -/
structure Caps where
  memCap : Nat
  streamCap : Nat
deriving DecidableEq, Repr

/-- `B_MAX` (30_encoding.md R62). -/
def bMax : Nat := 2047

/-- `C_MAX`, the encoder's bound of C, narrower than the 19-bit field (30_encoding.md R62). -/
def cMax : Nat := 262143

/-- `D_MAX` (30_encoding.md R62). -/
def dMax : Nat := 4095

/-- `OP_MAX = 2^OPW - 1` (30_encoding.md R62). -/
def OpWidth.opMax (opw : OpWidth) : Nat := 2 ^ opw.bits - 1

end Sys2Proof
end

