-- ==== Sys2Proof/Syntax.lean ====
section
/-! DEFINITION. Syntax.lean: the instruction set, one constructor per row of spec/opcode_table.json
(30_encoding.md R75). -/

namespace Sys2Proof

/-- An instruction with the three fields of its word (30_encoding.md R60, R71). D of the two
arity-2 instructions is kept although they ignore it (R80), so that no bit of an encoding is
dropped (log entry 9). C is the whole 19-bit field: the encoder's narrower bound is a matter of
`Instr.wellFormed`, not of what the machine can run (R66). -/
inductive Instr where
  /-- LOAD_CONST, opcode 2 (41_load.md R130). -/
  | loadConst (b : BitVec 11) (c : BitVec 19) (d : BitVec 12)
  /-- STORE_MEMORY, opcode 10 (42_combine_shift.md R142). -/
  | storeMemory (b : BitVec 11) (c : BitVec 19) (d : BitVec 12)
  /-- LOAD_MEMORY, opcode 14 (41_load.md R131). -/
  | loadMemory (b : BitVec 11) (c : BitVec 19) (d : BitVec 12)
  /-- SHIFT_RIGHT, opcode 15 (42_combine_shift.md R143). -/
  | shiftRight (b : BitVec 11) (c : BitVec 19) (d : BitVec 12)
  /-- SHIFT_LEFT, opcode 16, selected only at `OPW = 5` (42_combine_shift.md R144). -/
  | shiftLeft (b : BitVec 11) (c : BitVec 19) (d : BitVec 12)
deriving DecidableEq, Repr

end Sys2Proof
end

