-- ==== Sys2Proof/WellFormed.lean ====
section
/-! DEFINITION. WellFormed.lean: which instructions the encoder can produce (spec/30_encoding.md
R62, R68, R76). The machine also runs words the encoder refuses (R66, R68); this check is the
encoder's. -/

namespace Sys2Proof

/-- Field C of the word. -/
def Instr.fieldC : Instr → BitVec 19
  | .loadConst _ c _ => c
  | .storeMemory _ c _ => c
  | .loadMemory _ c _ => c
  | .shiftRight _ c _ => c
  | .shiftLeft _ c _ => c

/-- The opcode fits the opcode field: SHIFT_LEFT's code 16 needs `OPW = 5`
(30_encoding.md R75, R76). -/
def Instr.opcodeFits (opw : OpWidth) : Instr → Bool
  | .loadConst _ _ _ => true
  | .storeMemory _ _ _ => true
  | .loadMemory _ _ _ => true
  | .shiftRight _ _ _ => true
  | .shiftLeft _ _ _ => decide (opw = .five)

/-- C is within the encoder's bound (30_encoding.md R62). -/
def Instr.cInBound (i : Instr) : Bool := decide (i.fieldC.toNat ≤ cMax)

/-- The encoder accepts the instruction. B and D need no check: their types are as wide as their
bounds (30_encoding.md R62). Log entry 21. -/
def Instr.wellFormed (opw : OpWidth) (i : Instr) : Bool := i.opcodeFits opw && i.cInBound

end Sys2Proof
end

