-- ==== Sys2Proof/Decode.lean ====
section
/-! DEFINITION. Decode.lean: the codec (spec/30_encoding.md): byte order, the fields of a word, the
opcode map, the decoder, and after it the encoder. All of it is stateless (10_state.md R20). -/

namespace Sys2Proof

/-! ## Byte order (30_encoding.md R61; 20_memory.md R42, R45) -/

/-- `BE56`: the word of seven bytes, the first the most significant; none for another number of
bytes (00_scope.md R8). -/
def be56 : List Byte → Option InstrWord
  | [b0, b1, b2, b3, b4, b5, b6] => some (b0 ++ b1 ++ b2 ++ b3 ++ b4 ++ b5 ++ b6)
  | _ => none

/-- The seven bytes of a word, most significant first (30_encoding.md R61, R63). -/
def bytesOfWord (w : InstrWord) : List Byte :=
  [w.extractLsb' 48 8, w.extractLsb' 40 8, w.extractLsb' 32 8, w.extractLsb' 24 8,
   w.extractLsb' 16 8, w.extractLsb' 8 8, w.extractLsb' 0 8]

/-! ## Fields (30_encoding.md R60, R66) -/

/-- Field `opcode`, `w[48+OPW : 49]`, zero-extended. -/
def wordOp (opw : OpWidth) (w : InstrWord) : Nat := (w.extractLsb' 49 opw.bits).toNat

/-- Field `B`, `w[48:38]`. -/
def wordB (w : InstrWord) : BitVec 11 := w.extractLsb' 38 11

/-- Field `C`, `w[30:12]`, all 19 bits. -/
def wordC (w : InstrWord) : BitVec 19 := w.extractLsb' 12 19

/-- Field `D`, `w[11:0]`. -/
def wordD (w : InstrWord) : BitVec 12 := w.extractLsb' 0 12

/-- The mask of the reserved bits at a given `OPW` (30_encoding.md R60). -/
def rsvdMask : OpWidth → InstrWord
  | .four => 0xE0003F80000000#56
  | .five => 0xC0003F80000000#56

/-- `w AND RSVD_MASK`. -/
def rsvdBits (opw : OpWidth) (w : InstrWord) : InstrWord := w &&& rsvdMask opw

/-- `rsvd_nz(w)` (30_encoding.md R67). -/
def rsvdNz (opw : OpWidth) (w : InstrWord) : Bool := rsvdBits opw w != 0#56

/-- `c_over(w)` (30_encoding.md R67). -/
def cOver (w : InstrWord) : Bool := decide (cMax < (wordC w).toNat)

/-- What `Decode` returns: the quadruple `(op, b, c, d)` (30_encoding.md R66). -/
structure Fields where
  op : Nat
  b : BitVec 11
  c : BitVec 19
  d : BitVec 12
deriving DecidableEq, Repr

/-- `Decode(w)`: total, it never fails (30_encoding.md R66). -/
def decodeFields (opw : OpWidth) (w : InstrWord) : Fields :=
  { op := wordOp opw w, b := wordB w, c := wordC w, d := wordD w }

/-! ## The opcode map (30_encoding.md R75) -/

/-- The closed enumeration of the defined opcodes. -/
inductive Mnemonic where
  | loadConst
  | storeMemory
  | loadMemory
  | shiftRight
  | shiftLeft
deriving DecidableEq, Repr

/-- Every mnemonic, in the table's order. -/
def Mnemonic.all : List Mnemonic := [.loadConst, .storeMemory, .loadMemory, .shiftRight, .shiftLeft]

/-- The code of a mnemonic (30_encoding.md R75). -/
def Mnemonic.code : Mnemonic → Nat
  | .loadConst => 2
  | .storeMemory => 10
  | .loadMemory => 14
  | .shiftRight => 15
  | .shiftLeft => 16

/-- The number of operands of a mnemonic (30_encoding.md R75). -/
def Mnemonic.arity : Mnemonic → Nat
  | .loadConst => 2
  | .storeMemory => 3
  | .loadMemory => 2
  | .shiftRight => 3
  | .shiftLeft => 3

/-- The mnemonic of a code, none for an undefined opcode (30_encoding.md R78). At `OPW = 4` no
field value reaches 16, so `DEFINED(4)` and `DEFINED(5)` (40_execution.md R111) need no second
table. -/
def Mnemonic.ofCode (code : Nat) : Option Mnemonic := Mnemonic.all.find? (fun m => m.code == code)

/-- The mnemonic of an instruction. -/
def Instr.mnemonic : Instr → Mnemonic
  | .loadConst _ _ _ => .loadConst
  | .storeMemory _ _ _ => .storeMemory
  | .loadMemory _ _ _ => .loadMemory
  | .shiftRight _ _ _ => .shiftRight
  | .shiftLeft _ _ _ => .shiftLeft

/-- Field B of an instruction. -/
def Instr.fieldB : Instr → BitVec 11
  | .loadConst b _ _ => b
  | .storeMemory b _ _ => b
  | .loadMemory b _ _ => b
  | .shiftRight b _ _ => b
  | .shiftLeft b _ _ => b

/-- Field D of an instruction. -/
def Instr.fieldD : Instr → BitVec 12
  | .loadConst _ _ d => d
  | .storeMemory _ _ d => d
  | .loadMemory _ _ d => d
  | .shiftRight _ _ d => d
  | .shiftLeft _ _ d => d

/-- The instruction of a mnemonic and three fields (30_encoding.md R71). -/
def Instr.ofParts (m : Mnemonic) (b : BitVec 11) (c : BitVec 19) (d : BitVec 12) : Instr :=
  match m with
  | .loadConst => .loadConst b c d
  | .storeMemory => .storeMemory b c d
  | .loadMemory => .loadMemory b c d
  | .shiftRight => .shiftRight b c d
  | .shiftLeft => .shiftLeft b c d

/-! ## The decoder of instructions -/

/-- Why bytes spell no instruction. -/
inductive DecodeError where
  /-- The opcode is none of the defined ones (30_encoding.md R78). -/
  | unknownOpcode (code : Nat)
  /-- The bytes are not seven (30_encoding.md R61). -/
  | notSevenBytes (length : Nat)
deriving DecidableEq, Repr

/-- The instruction a word spells at a given `OPW`, or its undefined opcode value
(30_encoding.md R66, R75, R78). Reserved bits are ignored (R67). -/
def decodeWord (opw : OpWidth) (w : InstrWord) : Except DecodeError Instr :=
  match Mnemonic.ofCode (decodeFields opw w).op with
  | some m => .ok (Instr.ofParts m (decodeFields opw w).b (decodeFields opw w).c (decodeFields opw w).d)
  | none => .error (.unknownOpcode (decodeFields opw w).op)

/-- The instruction that bytes spell; total on any bytes, rejecting by name. -/
def decodeBytes (opw : OpWidth) (bytes : List Byte) : Except DecodeError Instr :=
  match be56 bytes with
  | some w => decodeWord opw w
  | none => .error (.notSevenBytes bytes.length)

/-! ## The encoder (30_encoding.md R62 to R65) -/

/-- `FieldOverflow(field, value)`: `field` is none for the defensive 56-bit check (R63). -/
structure FieldOverflow where
  field : Option FieldName
  value : Nat
deriving DecidableEq, Repr

/-- The natural `(op << 49) | (b << 38) | (c << 12) | d`, unmasked (30_encoding.md R63). -/
def packFields (op b c d : Nat) : Nat := (op <<< 49) ||| (b <<< 38) ||| (c <<< 12) ||| d

/-- `Encode(op, b, c, d)`: the checks in the order opcode, B, C, D, then the defensive check, then
the seven bytes, most significant first (30_encoding.md R63). Nothing is truncated (R65). -/
def encodeFields (opw : OpWidth) (op b c d : Nat) : Except FieldOverflow (List Byte) :=
  if opw.opMax < op then .error { field := some .opcode, value := op }
  else if bMax < b then .error { field := some .B, value := b }
  else if cMax < c then .error { field := some .C, value := c }
  else if dMax < d then .error { field := some .D, value := d }
  else if 2 ^ 56 ≤ packFields op b c d then .error { field := none, value := packFields op b c d }
  else .ok (bytesOfWord (BitVec.ofNat 56 (packFields op b c d)))

/-- `Encode` of an instruction's code and fields: its bytes when it is well-formed, else the
encoder's refusal. -/
def encode (opw : OpWidth) (i : Instr) : Except FieldOverflow (List Byte) :=
  encodeFields opw i.mnemonic.code i.fieldB.toNat i.fieldC.toNat i.fieldD.toNat

/-- The word of an instruction, hand-made: no check, so C may exceed the encoder's bound
(41_load.md R130: "Word ... | b << 38 | c << 12 | d"). -/
def Instr.word (i : Instr) : InstrWord :=
  BitVec.ofNat 56 (packFields i.mnemonic.code i.fieldB.toNat i.fieldC.toNat i.fieldD.toNat)

/-- A canonical word: no reserved bit, C within the encoder's bound, a defined opcode
(30_encoding.md R68). -/
def canonical (opw : OpWidth) (w : InstrWord) : Bool :=
  !rsvdNz opw w && !cOver w && (Mnemonic.ofCode (wordOp opw w)).isSome

/-! ## Words numbered as spec/opcode_table.json numbers them -/

/-- The word of the lowest `nbits` bits of `w`. The table numbers the bits of one 56-bit word, and
the stream carries it big-endian, so the bytes are `bytesOfWord` of it (log entry 19). -/
def tableWord (nbits w : Nat) : InstrWord := BitVec.ofNat 56 (w % 2 ^ nbits)

/-- The instruction the decoder reads from a word of the table: at the normative `OPW = 4`, and
where that refuses it, at `OPW = 5`, the configuration the table's own `"opw"` names for its row
SHIFT_LEFT (30_encoding.md R76, R77; log entry 11). -/
def decodeTableWord (nbits w : Nat) : Option Instr :=
  match decodeBytes .four (bytesOfWord (tableWord nbits w)) with
  | .ok i => some i
  | .error _ =>
    match decodeBytes .five (bytesOfWord (tableWord nbits w)) with
    | .ok i => some i
    | .error _ => none

/-- The `OPW` at which a table word is the instruction `decodeTableWord` reads: the current one where
that agrees, else the other (log entry 11). -/
def tableOpWidth (opw : OpWidth) (nbits w : Nat) : OpWidth :=
  match decodeTableWord nbits w, decodeWord opw (tableWord nbits w) with
  | none, _ => opw
  | some i, .ok j => if i = j then opw else opw.other
  | some _, .error _ => opw.other

end Sys2Proof
end

