-- ==== Sys2Proof/Machine/State.lean ====
section
/-! DEFINITION. Machine/State.lean: the Executor's architectural state (spec/10_state.md R22), the
fault record (R25; 60_exceptions.md R160 to R162), and the reasons a step has no next state. -/

namespace Sys2Proof.Machine

/-- The run state (10_state.md R24). -/
inductive RunStatus where
  /-- No run has started since reset. -/
  | idle
  /-- A run is in progress; the next step executes instruction `ip`. -/
  | run
  /-- Every instruction of the stream was executed. -/
  | done
  /-- A fault stopped the run. -/
  | fault
deriving DecidableEq, Repr

/-- The fault kinds: the source's six and the two the spec adds (60_exceptions.md R160). -/
inductive FaultKind where
  | assemblyError
  | fieldOverflow
  | malformedStream
  | unknownOpcode
  | outOfBounds
  | rangeError
  | cellOverflow
  | reservedBits
deriving DecidableEq, Repr

/-- A fault record whose `value` and `aux` are of type `α` (10_state.md R25, filled as
60_exceptions.md R162 says). `opcode` holds the "other context" R162 gives CellOverflow; it is none
for the other kinds (log entry 8). -/
structure FaultRecordOf (α : Type) where
  kind : FaultKind
  code : Nat
  k : Option Nat
  field : Option FieldName
  value : Option α
  aux : Option α
  opcode : Option Nat
deriving DecidableEq, Repr

/-- The fault record of R25, whose `value` and `aux` are naturals. Only RangeError's, which no state
holds, is of integers (log entry 18). -/
abbrev FaultRecord := FaultRecordOf Nat

/-- A listed data cell: its index and its value, a natural number (20_memory.md R43, R46). -/
abbrev DataCell := Nat × Nat

/-- The data memory as a sparse list of cells; a cell not listed reads 0 (10_state.md R31; log
entry 4). -/
abbrev Memory := List DataCell

/-- The Executor's state (10_state.md R22) and the configuration it was built with. -/
structure State where
  /-- The build-time parameters (10_state.md R28); no transition writes them (log entry 1). -/
  cfg : Config
  /-- The instruction store; its length is the spec's `L` (log entry 5). -/
  stream : List Byte
  /-- `mem_size`, the number of data cells, latched at start. -/
  memSize : Nat
  /-- `mem`, the data memory. -/
  mem : Memory
  /-- `ip`, the instruction index. -/
  ip : Nat
  /-- The run state. -/
  status : RunStatus
  /-- The fault record, none when no fault stopped the run. -/
  fault : Option FaultRecord
deriving DecidableEq, Repr

/-- `L`, the length of the stream in bytes (10_state.md R22). -/
def State.len (s : State) : Nat := s.stream.length

/-- `K = L / 7`, the number of instructions of the stream (10_state.md R22: "derived, not
stored"). -/
def State.count (s : State) : Nat := s.len / 7

/-- The state after reset with a given configuration: every other field as 10_state.md R30 says. -/
def State.resetWith (cfg : Config) : State :=
  { cfg := cfg, stream := [], memSize := 0, mem := [], ip := 0, status := .idle, fault := none }

/-- The machine right after reset (10_state.md R30; 70_reset_and_hazards.md R190), in the normative
configuration (00_scope.md R5). -/
def State.reset : State := State.resetWith Config.normative

/-- Why `step` has no next state. The machine's own faults are not here: taking one is a next state
(60_exceptions.md R165). -/
inductive Fault where
  /-- Raised by `step` when the status is not RUN: no step is enabled (40_execution.md R102). Safe:
  the model makes no move where the spec gives none. Log entry 6. -/
  | noStepEnabled (status : RunStatus)
  /-- Raised by `step` in RUN when `ip` is not below `K`, which no run reaches (20_memory.md R42).
  Safe. Log entry 7. -/
  | fetchOutsideStream
deriving DecidableEq, Repr

/-- Operations for which the model has no move. -/
inductive Refusal where
  /-- An instruction without a meaning: raised by no arm of `exec`, since all are modelled. Safe. -/
  | notModelled (mnemonic : String)
  /-- Raised by the Start port during RUN, a host duty (40_execution.md R122). Safe. -/
  | startWhileRunning
  /-- Raised by the Start port when the stream is longer than STREAM_CAP (40_execution.md R100).
  Safe. -/
  | streamAboveCap
  /-- Raised by the Start port when the memory size is above MEM_CAP (40_execution.md R100). Safe. -/
  | memoryAboveCap
  /-- Raised by the Dump port during RUN, a host duty (40_execution.md R119, R122). Safe. -/
  | dumpWhileRunning
deriving DecidableEq, Repr

/-- What a transition of the machine answers. -/
abbrev Result := Host.Outcome State Fault Refusal

end Sys2Proof.Machine
end

