-- ==== Sys2Proof/Machine/Ops.lean ====
section
/-! DEFINITION. Machine/Ops.lean: the operations the meanings share: the data memory
(spec/20_memory.md R43, R44), taking a fault (60_exceptions.md R165) and the commit of a step
(40_execution.md R108). -/

namespace Sys2Proof.Machine

/-! ## Data memory -/

/-- The canonical form of a memory: indices strictly rising, and no cell listed with the value 0
that an unlisted cell reads as. Equal memories are equal lists. -/
abbrev Memory.wf (m : Memory) : Prop :=
  m.Pairwise (fun p q => p.1 < q.1) ∧ ∀ p ∈ m, p.2 ≠ 0

/-- What a cell that nothing has written reads as: "Each cell holds 0 from its allocation"
(10_state.md R31). -/
def unwrittenCell : Nat := 0

/-- `mem[i]`, a `MemRead(i, 1)` (20_memory.md R44). -/
def Memory.read : Memory → Nat → Nat
  | [], _ => unwrittenCell
  | (a, v) :: m, i => if a = i then v else Memory.read m i

/-- The memory with no entry for cell `i`. -/
def Memory.erase (m : Memory) (i : Nat) : Memory := m.filter (fun p => p.1 != i)

/-- The memory with `(i, v)` put in front of the first entry of a higher index. -/
def Memory.insert (i v : Nat) : Memory → Memory
  | [] => [(i, v)]
  | (a, w) :: m => if i < a then (i, v) :: (a, w) :: m else (a, w) :: Memory.insert i v m

/-- `mem[i] <- v`, a `MemWrite(i, 1, v)` (20_memory.md R44): cell `i` reads `v`, every other cell
as before. -/
def Memory.write (m : Memory) (i v : Nat) : Memory :=
  if v = unwrittenCell then m.erase i else (m.erase i).insert i v

/-! ## Taking a fault (60_exceptions.md R165)

There is no return from a fault (R166): no instruction leaves FAULT, only Start and Reset do
(Machine/HostPorts.lean), and both clear the record. -/

/-- The number of a fault kind (60_exceptions.md R161). -/
def FaultKind.code : FaultKind → Nat
  | .assemblyError => 1
  | .fieldOverflow => 2
  | .malformedStream => 3
  | .unknownOpcode => 4
  | .outOfBounds => 5
  | .rangeError => 6
  | .cellOverflow => 7
  | .reservedBits => 8

/-- The code of the machine's fault: 0 when there is none (60_exceptions.md R161). -/
def faultCode : Option FaultRecord → Nat
  | none => 0
  | some r => r.code

/-- `MalformedStream(length, remainder)` (60_exceptions.md R162). -/
def FaultRecord.malformedStream (len : Nat) : FaultRecord :=
  { kind := .malformedStream, code := FaultKind.malformedStream.code, k := none, field := none,
    value := some len, aux := some (len % 7), opcode := none }

/-- `UnknownOpcode(code, k)` (60_exceptions.md R162). -/
def FaultRecord.unknownOpcode (op k : Nat) : FaultRecord :=
  { kind := .unknownOpcode, code := FaultKind.unknownOpcode.code, k := some k,
    field := some .opcode, value := some op, aux := some (7 * k), opcode := none }

/-- `OutOfBounds(field, value, k)` (60_exceptions.md R162). -/
def FaultRecord.outOfBounds (f : FieldName) (v k : Nat) : FaultRecord :=
  { kind := .outOfBounds, code := FaultKind.outOfBounds.code, k := some k, field := some f,
    value := some v, aux := some (7 * k), opcode := none }

/-- `CellOverflow(k, opcode, B, b)` (40_execution.md R107; 60_exceptions.md R162). -/
def FaultRecord.cellOverflow (op b k : Nat) : FaultRecord :=
  { kind := .cellOverflow, code := FaultKind.cellOverflow.code, k := some k, field := some .B,
    value := some b, aux := some (7 * k), opcode := some op }

/-- `ReservedBits(k, w AND RSVD_MASK)` (60_exceptions.md R162). -/
def FaultRecord.reservedBits (bits k : Nat) : FaultRecord :=
  { kind := .reservedBits, code := FaultKind.reservedBits.code, k := some k, field := none,
    value := some bits, aux := some (7 * k), opcode := none }

/-- Fault entry: the status becomes FAULT and the record is written; the memory, `ip`, `mem_size`
and the stream are unchanged (60_exceptions.md R165). -/
def State.raise (s : State) (r : FaultRecord) : State :=
  { s with status := .fault, fault := some r }

/-! ## Commit (40_execution.md R108, R110) -/

/-- The commit of a step: `mem[b] <- r`, `ip` advances by one instruction, and the run is DONE when
`ip` reaches `K`. -/
def State.commit (s : State) (b r : Nat) : State :=
  { s with
    mem := s.mem.write b r
    ip := s.ip + 1
    status := if s.ip + 1 = s.count then .done else s.status }

end Sys2Proof.Machine
end

