-- ==== Sys2Proof/Machine/Operands.lean ====
section
/-! DEFINITION. Machine/Operands.lean: what the fields of an instruction mean (spec/30_encoding.md
R71, R72) and the bounds check of the index fields (40_execution.md R105). -/

namespace Sys2Proof.Machine

/-- The immediate: C, unsigned, zero-extended, not scaled (30_encoding.md R72). -/
def immediate (c : BitVec 19) : Nat := c.toNat

/-- A cell index: the field's unsigned value, not scaled (30_encoding.md R72). -/
def cellIndex {n : Nat} (v : BitVec n) : Nat := v.toNat

/-- An index field by its name, with its value. -/
abbrev IndexField := FieldName × Nat

/-- `IDX` of an opcode whose only index is B (40_execution.md R105). -/
def indicesB (b : BitVec 11) : List IndexField := [(.B, cellIndex b)]

/-- `IDX` of an opcode with the indices B and C (40_execution.md R105). -/
def indicesBC (b : BitVec 11) (c : BitVec 19) : List IndexField :=
  [(.B, cellIndex b), (.C, cellIndex c)]

/-- `IDX` of an opcode with the indices B, C and D (40_execution.md R105). -/
def indicesBCD (b : BitVec 11) (c : BitVec 19) (d : BitVec 12) : List IndexField :=
  [(.B, cellIndex b), (.C, cellIndex c), (.D, cellIndex d)]

/-- The first index field, in the list's order, that is at or beyond `mem_size`
(40_execution.md R105). -/
def firstOutOfBounds (idx : List IndexField) (memSize : Nat) : Option IndexField :=
  idx.find? (fun f => decide (memSize ≤ f.2))

/-- The bounds check of a step: `OutOfBounds` on the first failing field, else what follows
(40_execution.md R105). -/
def checkIndices (idx : List IndexField) (s : State) (ok : Result) : Result :=
  match firstOutOfBounds idx s.memSize with
  | some f => .next (s.raise (.outOfBounds f.1 f.2 s.ip))
  | none => ok

/-- `mem[i]` for an index field. -/
def readCell {n : Nat} (s : State) (v : BitVec n) : Nat := s.mem.read (cellIndex v)

end Sys2Proof.Machine
end

