-- ==== Sys2Proof/Machine/Flags.lean ====
section
/-! DEFINITION. Machine/Flags.lean: the hardware has no flag of any kind (spec/10_state.md R27). What
other machines put into flags is here the result width check (40_execution.md R107;
42_combine_shift.md R141), with the exact integer operations it is made for (42_combine_shift.md
R140). -/

namespace Sys2Proof.Machine

/-- The result fits a cell: `r < 2^CELL_W`, always true when `CELL_W = ∞` (40_execution.md R107). -/
def cellHolds : CellWidth → Nat → Bool
  | .finite bits, r => decide (r < 2 ^ bits)
  | .unbounded, _ => true

/-- The number of bits of `x` without leading zeros: `bitlen(1) = 1` (42_combine_shift.md R141). -/
def bitLength (x : Nat) : Nat := if x = 0 then 0 else Nat.log2 x + 1

/-- `floor(x / 2^s)`, and 0 at once when `s >= bitlen(x)` (42_combine_shift.md R143), so that no
`2^s` of a huge `s` is computed (log entry 13). -/
def shiftRightNat (x s : Nat) : Nat := if bitLength x ≤ s then 0 else x / 2 ^ s

/-- `x * 2^s`, and 0 at once when `x = 0` (42_combine_shift.md R144; log entry 13). -/
def shiftLeftNat (x s : Nat) : Nat := if x = 0 then 0 else x * 2 ^ s

/-- Whether `x * 2^s` fits a cell, by the test of 42_combine_shift.md R144 that needs no
`2^s`-sized intermediate: it does not when `x != 0 and (s >= CELL_W or x >= 2^(CELL_W - s))`
(log entry 13). -/
def shiftLeftHolds : CellWidth → Nat → Nat → Bool
  | .finite bits, x, s => !(x != 0 && (decide (bits ≤ s) || decide (2 ^ (bits - s) ≤ x)))
  | .unbounded, _, _ => true

/-- The end of a step whose checks before the result passed: `CellOverflow` when the result does
not fit (40_execution.md R107), else the commit (R108). `fits` is the verdict of the width check,
`op` the opcode the fault names. -/
def finish (op b : Nat) (fits : Bool) (r : Nat) (s : State) : Result :=
  if fits then .next (s.commit b r) else .next (s.raise (.cellOverflow op b s.ip))

end Sys2Proof.Machine
end

