-- ==== Sys2Proof/Machine/CombineShift.lean ====
section
/-! DEFINITION. Machine/CombineShift.lean: STORE_MEMORY, SHIFT_RIGHT and SHIFT_LEFT
(spec/42_combine_shift.md). All source cells are read before the destination is written
(70_reset_and_hazards.md R195). -/

namespace Sys2Proof.Machine

/-- STORE_MEMORY (42_combine_shift.md R142): `mem[b] <- mem[c] + mem[d]`, exact. -/
def execStoreMemory (b : BitVec 11) (c : BitVec 19) (d : BitVec 12) (s : State) : Result :=
  checkIndices (indicesBCD b c d) s
    (finish Mnemonic.storeMemory.code (cellIndex b)
      (cellHolds s.cfg.cellW (readCell s c + readCell s d)) (readCell s c + readCell s d) s)

/-- SHIFT_RIGHT (42_combine_shift.md R143): `mem[b] <- floor(mem[c] / 2^mem[d])`. The amount is the
whole cell value. -/
def execShiftRight (b : BitVec 11) (c : BitVec 19) (d : BitVec 12) (s : State) : Result :=
  checkIndices (indicesBCD b c d) s
    (finish Mnemonic.shiftRight.code (cellIndex b)
      (cellHolds s.cfg.cellW (shiftRightNat (readCell s c) (readCell s d)))
      (shiftRightNat (readCell s c) (readCell s d)) s)

/-- SHIFT_LEFT (42_combine_shift.md R144): `mem[b] <- mem[c] * 2^mem[d]`, exact, then the width
check. Which words select it is the decoder's matter (30_encoding.md R76, R77). -/
def execShiftLeft (b : BitVec 11) (c : BitVec 19) (d : BitVec 12) (s : State) : Result :=
  checkIndices (indicesBCD b c d) s
    (finish Mnemonic.shiftLeft.code (cellIndex b)
      (shiftLeftHolds s.cfg.cellW (readCell s c) (readCell s d))
      (shiftLeftNat (readCell s c) (readCell s d)) s)

end Sys2Proof.Machine
end

