-- ==== Sys2Proof/Machine/Load.lean ====
section
/-! DEFINITION. Machine/Load.lean: LOAD_CONST and LOAD_MEMORY (spec/41_load.md). -/

namespace Sys2Proof.Machine

/-- LOAD_CONST (41_load.md R130): `mem[b] <- c`. C is an immediate and is not bounds-checked; D is
ignored (30_encoding.md R80). -/
def execLoadConst (b : BitVec 11) (c : BitVec 19) (_d : BitVec 12) (s : State) : Result :=
  checkIndices (indicesB b) s
    (finish Mnemonic.loadConst.code (cellIndex b) (cellHolds s.cfg.cellW (immediate c))
      (immediate c) s)

/-- LOAD_MEMORY (41_load.md R131): `mem[b] <- mem[c]`. D is ignored (30_encoding.md R80). -/
def execLoadMemory (b : BitVec 11) (c : BitVec 19) (_d : BitVec 12) (s : State) : Result :=
  checkIndices (indicesBC b c) s
    (finish Mnemonic.loadMemory.code (cellIndex b) (cellHolds s.cfg.cellW (readCell s c))
      (readCell s c) s)

end Sys2Proof.Machine
end

