-- ==== Sys2Proof/Machine/Dispatch.lean ====
section
/-! DEFINITION. Machine/Dispatch.lean: the dispatch on the opcode (spec/40_execution.md R103, R106),
one arm per constructor of Instr. -/

namespace Sys2Proof.Machine

def exec (i : Instr) (s : State) : Host.Outcome State Fault Refusal :=
  match i with
  | .loadConst b c d => Sys2Proof.Machine.execLoadConst b c d s
  | .storeMemory b c d => Sys2Proof.Machine.execStoreMemory b c d s
  | .loadMemory b c d => Sys2Proof.Machine.execLoadMemory b c d s
  | .shiftRight b c d => Sys2Proof.Machine.execShiftRight b c d s
  | .shiftLeft b c d => Sys2Proof.Machine.execShiftLeft b c d s

end Sys2Proof.Machine
end

