-- ==== Sys2Proof/Machine/Fetch.lean ====
section
/-! DEFINITION. Machine/Fetch.lean: the front end of a step: whether a step is enabled, the fetch, the
reserved-bit check and the opcode check (spec/40_execution.md R102 to R104), and where a word is
placed so that the next step fetches it. -/

namespace Sys2Proof.Machine

/-- What the front end of a step gives. -/
inductive Fetched where
  /-- An instruction to execute. -/
  | instr (i : Instr)
  /-- A fault to take. -/
  | trap (r : FaultRecord)
  /-- No step. -/
  | stuck (r : Fault)
deriving DecidableEq, Repr

/-- `BE56(IFetch(k))`: the word of the bytes `stream[7k .. 7k+6]` (20_memory.md R42), none when the
stream does not hold them. -/
def fetchWord (stream : List Byte) (k : Nat) : Option InstrWord := be56 ((stream.drop (7 * k)).take 7)

/-- The checks on a fetched word, in the order of 60_exceptions.md R163: the reserved bits, only with
`RSVD_CHECK = on` (40_execution.md R104), then the opcode (R103). -/
def decodeStage (cfg : Config) (k : Nat) (w : InstrWord) : Fetched :=
  if cfg.rsvdCheck && rsvdNz cfg.opw w then
    .trap (.reservedBits (rsvdBits cfg.opw w).toNat k)
  else
    match decodeWord cfg.opw w with
    | .ok i => .instr i
    | .error _ => .trap (.unknownOpcode (decodeFields cfg.opw w).op k)

/-- The front end of a step in a state: "A step is enabled exactly when `status = RUN`"
(40_execution.md R102). -/
def fetchDecode (s : State) : Fetched :=
  match s.status with
  | .run =>
    match fetchWord s.stream s.ip with
    | some w => decodeStage s.cfg s.ip w
    | none => .stuck .fetchOutsideStream
  | .idle => .stuck (.noStepEnabled .idle)
  | .done => .stuck (.noStepEnabled .done)
  | .fault => .stuck (.noStepEnabled .fault)

/-- A stream whose instruction `k` is the seven bytes of `w`: the bytes before it are kept (0 where
there are none), and so are the whole instructions after it. -/
def placeWord (stream : List Byte) (k : Nat) (w : InstrWord) : List Byte :=
  (stream ++ List.replicate (7 * k - stream.length) 0#8).take (7 * k) ++ bytesOfWord w ++
    (stream.drop (7 * k + 7)).take ((stream.length - (7 * k + 7)) / 7 * 7)

/-- The state in which the next step runs the word `w` of `spec/opcode_table.json`: the word is
instruction `ip` of the stream, a run is in progress, and `OPW` is the one at which the table's
word is its row's instruction. From reset this is the state after `Start` of the seven bytes with
no data cell (log entries 10, 11). -/
def loadFetchWord (s : State) (nbits w : Nat) : State :=
  { s with
    cfg := { s.cfg with opw := tableOpWidth s.cfg.opw nbits w }
    stream := placeWord s.stream s.ip (tableWord nbits w)
    status := .run
    fault := none }

end Sys2Proof.Machine
end

