-- ==== Sys2Proof/Machine/Step.lean ====
section
/-! DEFINITION. Machine/Step.lean: one step of the Executor (spec/40_execution.md R111). -/

namespace Sys2Proof.Machine

/-- `Step()`: fetch and decode, then take the fault the front end found, or execute the instruction.
A fault taken is a next state (60_exceptions.md R165). -/
def step (s : State) : Host.Outcome State Fault Refusal :=
  match fetchDecode s with
  | .instr i => exec i s
  | .trap r => .next (s.raise r)
  | .stuck r => .fault r

/-- The state in which the next step fetches and runs the table's word `w`. -/
def State.withFetchWord (s : State) (nbits w : Nat) : State := loadFetchWord s nbits w

end Sys2Proof.Machine
end

