-- ==== Sys2Proof/Machine/Assembler.lean ====
section
/-! DEFINITION. Machine/Assembler.lean: the toolchain of spec/30_encoding.md §6 and §7: the assembler
(R81 to R95), its log (R96) and the printed form of a word (R97). It holds no state of the machine.
Source text is a list of characters (log entry 14). -/

namespace Sys2Proof.Machine

/-! ## Lines and tokens (30_encoding.md R85, R86) -/

/-- Whitespace inside a line: space, tab, CR, VT and FF (30_encoding.md R86). -/
def isBlankChar (c : Char) : Bool :=
  c == ' ' || c == '\t' || c == '\r' || c == Char.ofNat 11 || c == Char.ofNat 12

/-- The lines of a text, split at each line feed (30_encoding.md R85). -/
def splitLines : List Char → List (List Char)
  | [] => [[]]
  | c :: cs =>
    if c = '\n' then [] :: splitLines cs
    else
      match splitLines cs with
      | [] => [[c]]
      | l :: ls => (c :: l) :: ls

/-- The tokens of a line, `cur` being the token read so far, in reverse (30_encoding.md R86). -/
def tokensFrom (cur : List Char) : List Char → List (List Char)
  | [] => if cur.isEmpty then [] else [cur.reverse]
  | c :: cs =>
    if isBlankChar c then
      if cur.isEmpty then tokensFrom [] cs else cur.reverse :: tokensFrom [] cs
    else tokensFrom (c :: cur) cs

/-- The tokens of a line (30_encoding.md R86). -/
def tokens (line : List Char) : List (List Char) := tokensFrom [] line

/-- The non-blank lines, each with its number from 1 and its tokens; blank lines count in the
numbering (30_encoding.md R85). -/
def numberedLines : Nat → List (List Char) → List (Nat × List (List Char))
  | _, [] => []
  | n, l :: ls =>
    if (tokens l).isEmpty then numberedLines (n + 1) ls
    else (n, tokens l) :: numberedLines (n + 1) ls

/-! ## Mnemonics and operands (30_encoding.md R87 to R89) -/

/-- The spelling of a mnemonic (30_encoding.md R75). -/
def mnemonicSpelling : Mnemonic → List Char
  | .loadConst => ['L', 'O', 'A', 'D', '_', 'C', 'O', 'N', 'S', 'T']
  | .storeMemory => ['S', 'T', 'O', 'R', 'E', '_', 'M', 'E', 'M', 'O', 'R', 'Y']
  | .loadMemory => ['L', 'O', 'A', 'D', '_', 'M', 'E', 'M', 'O', 'R', 'Y']
  | .shiftRight => ['S', 'H', 'I', 'F', 'T', '_', 'R', 'I', 'G', 'H', 'T']
  | .shiftLeft => ['S', 'H', 'I', 'F', 'T', '_', 'L', 'E', 'F', 'T']

/-- The mnemonic a token spells, matched exactly (30_encoding.md R87). -/
def mnemonicOfToken (token : List Char) : Option Mnemonic :=
  Mnemonic.all.find? (fun m => mnemonicSpelling m == token)

/-- A decimal digit, `[0-9]` (30_encoding.md R88). -/
def isDecimalDigit (c : Char) : Bool := decide (48 ≤ c.toNat) && decide (c.toNat ≤ 57)

/-- The natural that decimal digits spell, after those already read. -/
def digitsValue (acc : Nat) : List Char → Nat
  | [] => acc
  | c :: cs => digitsValue (acc * 10 + (c.toNat - 48)) cs

/-- The natural an operand token spells, none unless it matches `[0-9]+` (30_encoding.md R88). -/
def operandValue (token : List Char) : Option Nat :=
  if !token.isEmpty && token.all isDecimalDigit then some (digitsValue 0 token) else none

/-- Why a line is malformed (60_exceptions.md R160, R162). Operand positions count from 1. -/
inductive LineFault where
  | unknownMnemonic (token : List Char)
  | wrongArity (expected got : Nat)
  | nonInteger (position : Nat) (token : List Char)
deriving DecidableEq, Repr

/-- What assembly fails with: `AssemblyError` or `FieldOverflow`, each with its line number
(60_exceptions.md R160, R162). -/
inductive AsmError where
  | assemblyError (line : Nat) (reason : LineFault)
  | fieldOverflow (line : Nat) (overflow : FieldOverflow)
deriving DecidableEq, Repr

/-- The record of a `FieldOverflow` (60_exceptions.md R162). It is the caller's: no transition of the
machine stores it (R164). -/
def fieldOverflowRecord (o : FieldOverflow) : FaultRecord :=
  { kind := .fieldOverflow, code := FaultKind.fieldOverflow.code, k := none, field := o.field,
    value := some o.value, aux := none, opcode := none }

/-- The record of an assembly failure (60_exceptions.md R162); the line number and the reason are in
the `AsmError` itself. -/
def asmErrorRecord : AsmError → FaultRecord
  | .assemblyError _ _ =>
    { kind := .assemblyError, code := FaultKind.assemblyError.code, k := none, field := none,
      value := none, aux := none, opcode := none }
  | .fieldOverflow _ o => fieldOverflowRecord o

/-- The values of the operand tokens, the leftmost failing one reported (30_encoding.md R90). -/
def operandValues : Nat → List (List Char) → Except LineFault (List Nat)
  | _, [] => .ok []
  | n, t :: ts =>
    match operandValue t with
    | none => .error (.nonInteger n t)
    | some v =>
      match operandValues (n + 1) ts with
      | .ok vs => .ok (v :: vs)
      | .error e => .error e

/-- A parsed line: its mnemonic and its operand values. -/
structure ParsedLine where
  mnemonic : Mnemonic
  operands : List Nat
deriving DecidableEq, Repr

/-- The checks of a line before the field ranges, in the order mnemonic, arity, integers
(30_encoding.md R90). A line without tokens is never given. -/
def parseTokens : List (List Char) → Except LineFault ParsedLine
  | [] => .error (.unknownMnemonic [])
  | t :: ts =>
    match mnemonicOfToken t with
    | none => .error (.unknownMnemonic t)
    | some m =>
      if ts.length ≠ m.arity then .error (.wrongArity m.arity ts.length)
      else
        match operandValues 1 ts with
        | .ok vs => .ok { mnemonic := m, operands := vs }
        | .error e => .error e

/-! ## Assembly (30_encoding.md R91 to R96) -/

/-- A record of the assembly log: the mnemonic, the opcode number in column A, and the operands
encoded, D blank for an arity-2 instruction (30_encoding.md R96). -/
structure LogEntry where
  mnemonic : Mnemonic
  a : Nat
  b : Nat
  c : Nat
  d : Option Nat
deriving DecidableEq, Repr

/-- Operand `n` of a line (from 0), 0 where the line has none: the operands are bound to B, C and D
by position, and D of an arity-2 line is 0 (30_encoding.md R91, R94). -/
def ParsedLine.operand (p : ParsedLine) (n : Nat) : Nat := p.operands.getD n 0

/-- The bytes of a parsed line, or the encoder's `FieldOverflow` (30_encoding.md R91). -/
def ParsedLine.bytes (opw : OpWidth) (p : ParsedLine) : Except FieldOverflow (List Byte) :=
  encodeFields opw p.mnemonic.code (p.operand 0) (p.operand 1) (p.operand 2)

/-- The log entry of a parsed line (30_encoding.md R96). -/
def ParsedLine.logEntry (p : ParsedLine) : LogEntry :=
  { mnemonic := p.mnemonic, a := p.mnemonic.code, b := p.operand 0, c := p.operand 1,
    d := if p.mnemonic.arity = 3 then some (p.operand 2) else none }

/-- One numbered line assembled: its seven bytes and its log entry, or its first failing check
(30_encoding.md R90). -/
def assembleLine (opw : OpWidth) (line : Nat) (toks : List (List Char)) :
    Except AsmError (List Byte × LogEntry) :=
  match parseTokens toks with
  | .error e => .error (.assemblyError line e)
  | .ok p =>
    match p.bytes opw with
    | .error o => .error (.fieldOverflow line o)
    | .ok bytes => .ok (bytes, p.logEntry)

/-- The non-blank lines assembled in order, all or nothing: the first failing line is the one
reported (30_encoding.md R90, R92, R93). -/
def assembleLines (opw : OpWidth) :
    List (Nat × List (List Char)) → Except AsmError (List Byte × List LogEntry)
  | [] => .ok ([], [])
  | (line, toks) :: rest =>
    match assembleLine opw line toks with
    | .error e => .error e
    | .ok (bytes, entry) =>
      match assembleLines opw rest with
      | .error e => .error e
      | .ok (stream, log) => .ok (bytes ++ stream, entry :: log)

/-- `assemble`: a source text to a stream and a log, or the first failure (30_encoding.md R85,
R92, R93). -/
def assemble (opw : OpWidth) (text : List Char) : Except AsmError (List Byte × List LogEntry) :=
  assembleLines opw (numberedLines 1 (splitLines text))

/-! ## The printed form (30_encoding.md R97) -/

/-- The decimal digit of a number below 10. -/
def digitChar (n : Nat) : Char := Char.ofNat (48 + n)

/-- The decimal digits of a natural, most significant first, without leading zeros; `fuel` bounds
their number and suffices when it exceeds the value. -/
def decimalFrom : Nat → Nat → List Char
  | 0, _ => []
  | fuel + 1, n =>
    if n < 10 then [digitChar n]
    else decimalFrom fuel (n / 10) ++ [digitChar (n % 10)]

/-- A natural in decimal without leading zeros. -/
def decimal (n : Nat) : List Char := decimalFrom (n + 1) n

/-- The printed form of an instruction: `MNEMONIC B C` or `MNEMONIC B C D`, one space between
(30_encoding.md R97). -/
def printInstr (i : Instr) : List Char :=
  mnemonicSpelling i.mnemonic ++ ' ' :: decimal i.fieldB.toNat ++ ' ' :: decimal i.fieldC.toNat ++
    (if i.mnemonic.arity = 3 then ' ' :: decimal i.fieldD.toNat else [])

/-- The printed form of a word; a word with an undefined opcode has none and is reported as
`UnknownOpcode(code)` (30_encoding.md R97). -/
def printWord (opw : OpWidth) (w : InstrWord) : Except DecodeError (List Char) :=
  match decodeWord opw w with
  | .ok i => .ok (printInstr i)
  | .error e => .error e

end Sys2Proof.Machine
end

