-- ==== Sys2Proof/Machine/HostPorts.lean ====
section
/-! DEFINITION. Machine/HostPorts.lean: the host's operations on the machine: Start, Reset, ReadStatus
and Dump (spec/40_execution.md R100, R101, R118 to R122; 70_reset_and_hazards.md R190). The Step
transition is Machine/Step.lean's; Machine/System.lean joins them (log entry 15). -/

namespace Sys2Proof.Machine

/-- The effect of `Start(S, n)` when its preconditions hold: a fresh memory of `n` zero cells, then
`MalformedStream`, or DONE for the empty stream, or RUN (40_execution.md R100, R101). It does not look
at the preconditions: that it gives a state where they fail is a DESIGN CHOICE (log entry 23), and the
port, `start`, makes no such move. -/
def State.begin (s : State) (stream : List Byte) (n : Nat) : State :=
  let t : State := { s with stream := stream, memSize := n, mem := [], ip := 0, fault := none }
  if stream.length % 7 ≠ 0 then t.raise (.malformedStream stream.length)
  else if stream.length = 0 then { t with status := .done }
  else { t with status := .run }

/-- The Start port. Its preconditions are host duties (40_execution.md R100, R122); where one fails
the model has no move. -/
def start (caps : Caps) (stream : List Byte) (n : Nat) (s : State) : Result :=
  if s.status = .run then .refused .startWhileRunning
  else if caps.streamCap < stream.length then .refused .streamAboveCap
  else if caps.memCap < n then .refused .memoryAboveCap
  else .next (s.begin stream n)

/-- The Reset port, at any time (70_reset_and_hazards.md R190). The configuration is how the machine
was built, so it stays (10_state.md R28). -/
def hostReset (s : State) : State := State.resetWith s.cfg

/-- What the status port shows (40_execution.md R118). -/
structure StatusView where
  status : RunStatus
  ip : Nat
  fault : Option FaultRecord
  memSize : Nat
  len : Nat
deriving DecidableEq, Repr

/-- The status port: a read at any time; it changes nothing (40_execution.md R118). -/
def readStatus (s : State) : StatusView :=
  { status := s.status, ip := s.ip, fault := s.fault, memSize := s.memSize, len := s.len }

/-- `RangeError(start, end, mem_size)`, a result of the dump port (40_execution.md R119;
60_exceptions.md R162, R164). The arguments are integers (log entry 18). -/
structure RangeError where
  first : Int
  stop : Int
  memSize : Nat
deriving DecidableEq, Repr

/-- The kind of a dump's error (60_exceptions.md R160). -/
def RangeError.kind (_e : RangeError) : FaultKind := .rangeError

/-- The record of a dump's error: `value` is `start` and `aux` is `end` (60_exceptions.md R162); the
other context, `mem_size`, is in the `RangeError` itself. It is the host's: no transition of the
machine stores it (R164). -/
def RangeError.record (e : RangeError) : FaultRecordOf Int :=
  { kind := e.kind, code := e.kind.code, k := none, field := none, value := some e.first,
    aux := some e.stop, opcode := none }

/-- The records of `[first, first + n)` in ascending order. -/
def dumpRange (m : Memory) : Nat → Nat → List DataCell
  | _, 0 => []
  | a, n + 1 => (a, m.read a) :: dumpRange m (a + 1) n

/-- `Dump(start, end)` when it is available (40_execution.md R119). -/
def dumpCells (s : State) (first stop : Int) : Except RangeError (List DataCell) :=
  if 0 ≤ first ∧ first ≤ stop ∧ stop ≤ (s.memSize : Int) then
    .ok (dumpRange s.mem first.toNat (stop.toNat - first.toNat))
  else .error { first := first, stop := stop, memSize := s.memSize }

/-- The Dump port: available unless a run is in progress (40_execution.md R119, R122). -/
def dump (s : State) (first stop : Int) : Except Refusal (Except RangeError (List DataCell)) :=
  if s.status = .run then .error .dumpWhileRunning else .ok (dumpCells s first stop)

end Sys2Proof.Machine
end

