-- ==== Sys2Proof/Machine/System.lean ====
section
/-! DEFINITION. Machine/System.lean: all the transitions of the machine (spec/70_reset_and_hazards.md
R196) and a whole run (40_execution.md R110, R112). -/

namespace Sys2Proof.Machine

/-- The transitions of R196: Start, Step, Reset and the reads of the status and dump ports. -/
inductive Event where
  | start (stream : List Byte) (n : Nat)
  | step
  | reset
  | readStatus
  | dump (first stop : Int)
deriving DecidableEq, Repr

/-- The state after one transition. The reads leave the state as it is (40_execution.md R118, R119);
what they answer is `readStatus` and `dump`. -/
def transition (caps : Caps) (e : Event) (s : State) : Result :=
  match e with
  | .start stream n => start caps stream n s
  | .step => step s
  | .reset => .next (hostReset s)
  | .readStatus => .next s
  | .dump _ _ => if s.status = .run then .refused .dumpWhileRunning else .next s

/-- "`Step()` while `status = RUN`", at most so many steps (40_execution.md R112). Where a state in RUN
has no step, which no run reaches (log entry 7), it stays in that state. -/
def runSteps : Nat → State → State
  | 0, s => s
  | n + 1, s =>
    if s.status = .run then
      match step s with
      | .next t => runSteps n t
      | .fault _ => s
      | .refused _ => s
    else s

/-- `run(S, n)`: `Start(S, n)`, then steps while RUN, of which `K = L / 7` suffice
(40_execution.md R112).

DESIGN CHOICE (log entry 23): `run` applies the effect of Start without its preconditions (`status` not
RUN, `L <= STREAM_CAP`, `n <= MEM_CAP`; R100). Where one fails the spec has no run (R122; decisions D6,
D22), and the state `run` gives there is the model's, not the spec's. The Start port refuses there
(log entry 12). -/
def run (s : State) (stream : List Byte) (n : Nat) : State :=
  runSteps (stream.length / 7) (s.begin stream n)

end Sys2Proof.Machine
end

