-- ==== Sys2Proof/Safety.lean ====
section
/-! DEFINITION. Safety.lean: the states a run of the machine stays in: the invariant of the
architectural state (spec/10_state.md R22, R24, R25). -/

namespace Sys2Proof.Machine

/-- Every listed cell exists and its value fits a cell (20_memory.md R43). -/
abbrev State.cellsFit (s : State) : Prop :=
  ∀ p ∈ s.mem, p.1 < s.memSize ∧ cellHolds s.cfg.cellW p.2 = true

/-- A fault record an Executor fault leaves: its code is its kind's (60_exceptions.md R161), and it is
either `MalformedStream` of this stream, with `ip = 0`, or the fault of instruction `ip`, with the
byte offset `7 * ip` in `aux` (60_exceptions.md R162; 10_state.md R24). -/
abbrev State.faultMatches (s : State) (r : FaultRecord) : Prop :=
  r.code = r.kind.code ∧
    ((s.len % 7 ≠ 0 ∧ s.ip = 0 ∧ r = FaultRecord.malformedStream s.len) ∨
      (s.len % 7 = 0 ∧ s.ip < s.count ∧ r.k = some s.ip ∧ r.aux = some (7 * s.ip) ∧
        (r.kind = .unknownOpcode ∨ r.kind = .outOfBounds ∨ r.kind = .cellOverflow ∨
          r.kind = .reservedBits)))

/-- What the status says of the rest of the state (10_state.md R24). -/
abbrev State.statusMatches (s : State) : Prop :=
  match s.status with
  | .idle => s.stream = [] ∧ s.memSize = 0 ∧ s.mem = [] ∧ s.ip = 0 ∧ s.fault = none
  | .run => s.len % 7 = 0 ∧ s.ip < s.count ∧ s.fault = none
  | .done => s.len % 7 = 0 ∧ s.ip = s.count ∧ s.fault = none
  | .fault =>
    match s.fault with
    | none => False
    | some r => s.faultMatches r

/-- The invariant of the machine. -/
structure State.Inv (s : State) : Prop where
  cfg : s.cfg.cellW.wf = true
  mem : s.mem.wf
  cells : s.cellsFit
  status : s.statusMatches

/-- The capacities the host's Start keeps to (10_state.md R22). -/
structure State.WithinCaps (caps : Caps) (s : State) : Prop where
  stream : s.len ≤ caps.streamCap
  memory : s.memSize ≤ caps.memCap

/-- The run is over: the status is DONE or FAULT (40_execution.md R110). -/
abbrev State.ended (s : State) : Prop := s.status = .done ∨ s.status = .fault

end Sys2Proof.Machine
end

