-- ==== Sys2Proof/Certificates/Slice0/Obligations.lean ====
section
/-! DEFINITION. Certificates/Slice0/Obligations.lean: the statements for the provers, from the numbered
rules of spec/. -/

open Sys2Proof Sys2Proof.Machine

/-! ## What the statements say of a next state, written out -/

/-- The state after an instruction committed `r` to cell `b` (spec/40_execution.md R108). -/
def Sys2Proof.Claims.committed (s : State) (b r : Nat) : State :=
  { cfg := s.cfg, stream := s.stream, memSize := s.memSize, mem := s.mem.write b r, ip := s.ip + 1,
    status := if s.ip + 1 = s.stream.length / 7 then .done else s.status, fault := s.fault }

/-- The state after the instruction at `ip` raised a fault (spec/60_exceptions.md R162, R165). -/
def Sys2Proof.Claims.faulted (s : State) (kind : FaultKind) (code : Nat) (field : Option FieldName)
    (value : Nat) (opcode : Option Nat) : State :=
  { cfg := s.cfg, stream := s.stream, memSize := s.memSize, mem := s.mem, ip := s.ip,
    status := .fault,
    fault := some { kind := kind, code := code, k := some s.ip, field := field, value := some value,
                    aux := some (7 * s.ip), opcode := opcode } }

/-- The state with another stream. -/
def Sys2Proof.Claims.withStream (s : State) (stream : List Byte) : State :=
  { s with stream := stream }

/-- `DEFINED(OPW)` (spec/40_execution.md R111). -/
def Sys2Proof.Claims.definedOpcodes : OpWidth → List Nat
  | .four => [2, 10, 14, 15]
  | .five => [2, 10, 14, 15, 16]

/-- `CELL_W finite and r >= 2^CELL_W` (spec/40_execution.md R107). -/
def Sys2Proof.Claims.overflows : CellWidth → Nat → Bool
  | .finite bits, r => decide (2 ^ bits ≤ r)
  | .unbounded, _ => false

/-- The exact result of a defined opcode (spec/40_execution.md R106). -/
def Sys2Proof.Claims.specResult (op c d : Nat) (mem : Memory) : Nat :=
  if op = 2 then c
  else if op = 14 then mem.read c
  else if op = 10 then mem.read c + mem.read d
  else if op = 15 then mem.read c / 2 ^ mem.read d
  else mem.read c * 2 ^ mem.read d

open Sys2Proof.Claims

/-- The pseudocode of `Step()` (spec/40_execution.md R111) on a state and the word fetched in it,
written out with the fields as numbers and apart from the model's meanings. -/
def Sys2Proof.Claims.specStep (s : State) (w : InstrWord) : State :=
  let op := w.toNat / 2 ^ 49 % 2 ^ s.cfg.opw.bits
  let b := w.toNat / 2 ^ 38 % 2 ^ 11
  let c := w.toNat / 2 ^ 12 % 2 ^ 19
  let d := w.toNat % 2 ^ 12
  let r := specResult op c d s.mem
  if s.cfg.rsvdCheck = true ∧ w &&& rsvdMask s.cfg.opw ≠ 0#56 then
    faulted s .reservedBits 8 none (w &&& rsvdMask s.cfg.opw).toNat none
  else if op ∉ definedOpcodes s.cfg.opw then
    faulted s .unknownOpcode 4 (some .opcode) op none
  else if s.memSize ≤ b then faulted s .outOfBounds 5 (some .B) b none
  else if op ≠ 2 ∧ s.memSize ≤ c then faulted s .outOfBounds 5 (some .C) c none
  else if op ≠ 2 ∧ op ≠ 14 ∧ s.memSize ≤ d then faulted s .outOfBounds 5 (some .D) d none
  else if overflows s.cfg.cellW r then
    faulted s .cellOverflow 7 (some .B) b (some op)
  else committed s b r

/-! ## The codec (spec/30_encoding.md) -/

/-- R63 with R62's bounds: the checks in the order opcode, B, C, D, then the packed word as seven
bytes, most significant first. The defensive check never fires: the word is below `2^(49+OPW)`. -/
def Obligations.EncodeChecksInOrderThenPacks : Prop :=
  ∀ (opw : OpWidth) (op b c d : Nat),
    (2 ^ opw.bits - 1 < op → encodeFields opw op b c d = .error ⟨some .opcode, op⟩) ∧
    (op ≤ 2 ^ opw.bits - 1 → 2047 < b → encodeFields opw op b c d = .error ⟨some .B, b⟩) ∧
    (op ≤ 2 ^ opw.bits - 1 → b ≤ 2047 → 262143 < c →
      encodeFields opw op b c d = .error ⟨some .C, c⟩) ∧
    (op ≤ 2 ^ opw.bits - 1 → b ≤ 2047 → c ≤ 262143 → 4095 < d →
      encodeFields opw op b c d = .error ⟨some .D, d⟩) ∧
    (op ≤ 2 ^ opw.bits - 1 → b ≤ 2047 → c ≤ 262143 → d ≤ 4095 →
      (op <<< 49 ||| b <<< 38 ||| c <<< 12 ||| d) = op * 2 ^ 49 + b * 2 ^ 38 + c * 2 ^ 12 + d ∧
      op * 2 ^ 49 + b * 2 ^ 38 + c * 2 ^ 12 + d < 2 ^ (49 + opw.bits) ∧
      encodeFields opw op b c d = .ok ([48, 40, 32, 24, 16, 8, 0].map fun sh =>
        BitVec.ofNat 8 ((op * 2 ^ 49 + b * 2 ^ 38 + c * 2 ^ 12 + d) / 2 ^ sh)))

/-- R69: the three round-trip laws of the codec. -/
def Obligations.CodecRoundTripLaws : Prop :=
  (∀ (opw : OpWidth) (op b c d : Nat),
    op ≤ 2 ^ opw.bits - 1 → b ≤ 2047 → c ≤ 262143 → d ≤ 4095 →
    ∃ bytes w, encodeFields opw op b c d = .ok bytes ∧ be56 bytes = some w ∧
      (decodeFields opw w).op = op ∧ (decodeFields opw w).b.toNat = b ∧
      (decodeFields opw w).c.toNat = c ∧ (decodeFields opw w).d.toNat = d) ∧
  (∀ (opw : OpWidth) (w : InstrWord), rsvdNz opw w = false → cOver w = false →
    ∃ bytes, encodeFields opw (decodeFields opw w).op (decodeFields opw w).b.toNat
      (decodeFields opw w).c.toNat (decodeFields opw w).d.toNat = .ok bytes ∧
      be56 bytes = some w) ∧
  (∀ (opw : OpWidth) (w : InstrWord), rsvdNz opw w = true ∨ cOver w = true →
    (∃ bytes w', encodeFields opw (decodeFields opw w).op (decodeFields opw w).b.toNat
      (decodeFields opw w).c.toNat (decodeFields opw w).d.toNat = .ok bytes ∧
      be56 bytes = some w' ∧ w' ≠ w) ∨
    encodeFields opw (decodeFields opw w).op (decodeFields opw w).b.toNat
      (decodeFields opw w).c.toNat (decodeFields opw w).d.toNat =
        .error ⟨some .C, (decodeFields opw w).c.toNat⟩)

/-- R64: an encoded word has every reserved bit and bit 30 zero. -/
def Obligations.EncodedWordsKeepReservedBitsZero : Prop :=
  ∀ (opw : OpWidth) (op b c d : Nat) (bytes : List Byte), encodeFields opw op b c d = .ok bytes →
    ∃ w, be56 bytes = some w ∧
      (∀ i, (31 ≤ i ∧ i ≤ 37) ∨ 49 + opw.bits ≤ i → w.getLsbD i = false) ∧ w.getLsbD 30 = false

/-- From R67: words that differ only in reserved bits decode to the same quadruple. -/
def Obligations.DecodeIgnoresReservedBits : Prop :=
  ∀ (opw : OpWidth) (w w' : InstrWord),
    (∀ i, i < 56 → ¬((31 ≤ i ∧ i ≤ 37) ∨ 49 + opw.bits ≤ i) → w.getLsbD i = w'.getLsbD i) →
    decodeFields opw w = decodeFields opw w' ∧ cOver w = cOver w'

/-- From R68: the canonical words are exactly those the encoder produces for a defined opcode. -/
def Obligations.CanonicalWordsAreTheEncodersImage : Prop :=
  ∀ (opw : OpWidth) (w : InstrWord),
    canonical opw w = true ↔
      ∃ (m : Mnemonic) (b c d : Nat), encodeFields opw m.code b c d = .ok (bytesOfWord w)

/-- From R69 and R75: decoding the bytes the encoder gives for a well-formed instruction gives the
instruction back, with every operand at every value the encoder admits. -/
def Obligations.DecodeInvertsEncode : Prop :=
  ∀ (opw : OpWidth) (i : Instr), i.wellFormed opw = true →
    ∃ bytes, encode opw i = .ok bytes ∧ bytes.length = 7 ∧ decodeBytes opw bytes = .ok i

/-- From R66 and R130: a hand-made word is read back whole, C at all its 19 bits. -/
def Obligations.DecodeReadsHandMadeWords : Prop :=
  ∀ (opw : OpWidth) (i : Instr), i.opcodeFits opw = true →
    decodeWord opw i.word = .ok i ∧ rsvdNz opw i.word = false ∧
      (cOver i.word = true ↔ 262143 < i.fieldC.toNat)

/-- From R62 and R76: an instruction that is not well-formed is refused by the encoder, by the field
at fault. -/
def Obligations.EncodeRefusesIllFormed : Prop :=
  ∀ (opw : OpWidth) (i : Instr), i.wellFormed opw = false →
    encode opw i = .error
      (if i.opcodeFits opw then ⟨some .C, i.fieldC.toNat⟩ else ⟨some .opcode, 16⟩)

/-- R76: at `OPW = 4` SHIFT_LEFT cannot be encoded, decoded or selected, and a word whose
`w[52:49]` is 0 raises `UnknownOpcode(0)` when executed, whatever its bit 53
(`RSVD_CHECK = off`, the normative instance). -/
def Obligations.ShiftLeftUnreachableAtWidthFour : Prop :=
  (∀ b c d : Nat, encodeFields .four 16 b c d = .error ⟨some .opcode, 16⟩) ∧
  (∀ w : InstrWord, (decodeFields .four w).op ≠ 16) ∧
  (∀ (w : InstrWord) (b : BitVec 11) (c : BitVec 19) (d : BitVec 12),
    decodeWord .four w ≠ .ok (.shiftLeft b c d)) ∧
  (∀ w : InstrWord, w.extractLsb' 49 4 = 0#4 → (decodeFields .four w).op = 0) ∧
  (∀ (s : State) (w : InstrWord), s.status = .run → s.cfg.opw = .four → s.cfg.rsvdCheck = false →
    fetchWord s.stream s.ip = some w → w.extractLsb' 49 4 = 0#4 →
    step s = .next (faulted s .unknownOpcode 4 (some .opcode) 0 none))

/-- From R66 and R75: a word is an instruction exactly when its fields are that instruction's code and
operands. -/
def Obligations.DecodeSelectsByCode : Prop :=
  ∀ (opw : OpWidth) (w : InstrWord) (i : Instr),
    decodeWord opw w = .ok i ↔
      decodeFields opw w = { op := i.mnemonic.code, b := i.fieldB, c := i.fieldC, d := i.fieldD }

/-- The example words of R130, R131, R142, R143 and R144 decode to the instructions they stand for. -/
def Obligations.ExampleWordsDecode : Prop :=
  decodeBytes .four [0x04, 0x00, 0x00, 0x00, 0x00, 0xA0, 0x00] = .ok (.loadConst 0 10 0) ∧
  decodeBytes .four [0x1C, 0x00, 0x40, 0x00, 0x00, 0x00, 0x00] = .ok (.loadMemory 1 0 0) ∧
  decodeBytes .four [0x14, 0x00, 0x80, 0x00, 0x00, 0x00, 0x01] = .ok (.storeMemory 2 0 1) ∧
  decodeBytes .four [0x1E, 0x00, 0x40, 0x00, 0x00, 0x00, 0x01] = .ok (.shiftRight 1 0 1) ∧
  decodeBytes .five [0x20, 0x00, 0x40, 0x00, 0x00, 0x00, 0x01] = .ok (.shiftLeft 1 0 1) ∧
  decodeBytes .four [0x20, 0x00, 0x40, 0x00, 0x00, 0x00, 0x01] = .error (.unknownOpcode 0)

/-- R6: the reserved set at both widths, and the opcode field `w[48+OPW : 49]`. -/
def Obligations.ReservedSetAndOpcodeField : Prop :=
  (∀ i : Fin 56, (rsvdMask .four).getLsbD i =
    decide ((31 ≤ i.val ∧ i.val ≤ 37) ∨ (53 ≤ i.val ∧ i.val ≤ 55))) ∧
  (∀ i : Fin 56, (rsvdMask .five).getLsbD i =
    decide ((31 ≤ i.val ∧ i.val ≤ 37) ∨ (54 ≤ i.val ∧ i.val ≤ 55))) ∧
  (∀ (opw : OpWidth) (w : InstrWord),
    wordOp opw w = (w.extractLsb (48 + opw.bits) 49).toNat)

/-! ## Fetch, decode and the checks of a step (spec/20_memory.md, 40_execution.md) -/

/-- From R42: byte `7k + j` of the stream supplies `w[55-8j : 48-8j]`; there is no fetch where the
stream does not hold the seven bytes. -/
def Obligations.FetchAssemblesBigEndianBytes : Prop :=
  ∀ (stream : List Byte) (k : Nat),
    (7 * k + 7 ≤ stream.length → ∃ w, fetchWord stream k = some w ∧
      ∀ j, j < 7 → stream[7 * k + j]? = some (w.extractLsb' (48 - 8 * j) 8)) ∧
    (stream.length < 7 * k + 7 → fetchWord stream k = none)

/-- A step runs the decoded instruction: when a run is in progress, the seven bytes at `7 * ip` decode
to `i`, and the reserved-bit check does not fault, the step is `exec i`. The step adds nothing
around it: `exec` itself advances `ip`. -/
def Obligations.StepRunsTheDecodedInstruction : Prop :=
  ∀ (s : State) (w : InstrWord) (i : Instr), s.status = .run →
    be56 ((s.stream.drop (7 * s.ip)).take 7) = some w →
    (s.cfg.rsvdCheck = false ∨ rsvdNz s.cfg.opw w = false) →
    decodeBytes s.cfg.opw ((s.stream.drop (7 * s.ip)).take 7) = .ok i →
    step s = exec i s

/-- From R111, the complete step: it has a next state only in RUN, and whenever a run is in progress
and a word is fetched, the step is the spec's pseudocode on that word: the checks in their order, the
exact result, the commit. That the record of CellOverflow keeps R107's opcode in a field beside the
six of R25 is the model's choice (log entry 8). -/
def Obligations.StepIsTheSpecsPseudocode : Prop :=
  (∀ s t : State, step s = .next t → s.status = .run) ∧
  (∀ (s : State) (w : InstrWord), s.status = .run → fetchWord s.stream s.ip = some w →
    step s = .next (specStep s w))

/-- From R102: in a state of the invariant a step is enabled exactly when the status is RUN; where it
is not, the model answers `noStepEnabled` (the model's choice, log entry 6). -/
def Obligations.StepEnabledExactlyInRun : Prop :=
  ∀ s : State, s.Inv →
    ((∃ t, step s = .next t) ↔ s.status = .run) ∧
    (s.status ≠ .run → step s = .fault (.noStepEnabled s.status))

/-- R103: an opcode that is not defined at the configured width raises `UnknownOpcode` and writes
nothing. -/
def Obligations.UndefinedOpcodeStopsTheRun : Prop :=
  ∀ (s : State) (w : InstrWord), s.status = .run → fetchWord s.stream s.ip = some w →
    (s.cfg.rsvdCheck = false ∨ rsvdNz s.cfg.opw w = false) →
    ((decodeFields s.cfg.opw w).op ∉ definedOpcodes s.cfg.opw ↔
      step s = .next (faulted s .unknownOpcode 4 (some .opcode) (decodeFields s.cfg.opw w).op none))

/-- R104: with `RSVD_CHECK = on` a word with a reserved bit raises `ReservedBits` before its opcode is
looked at; with `off` the check does not exist and reserved bits have no effect. -/
def Obligations.ReservedBitsStopTheRunWhenChecked : Prop :=
  (∀ (s : State) (w : InstrWord), s.status = .run → fetchWord s.stream s.ip = some w →
    s.cfg.rsvdCheck = true → rsvdNz s.cfg.opw w = true →
    step s = .next (faulted s .reservedBits 8 none (w &&& rsvdMask s.cfg.opw).toNat none)) ∧
  (∀ (s t : State) (w : InstrWord) (stream : List Byte), s.status = .run →
    s.cfg.rsvdCheck = false → fetchWord s.stream s.ip = some w →
    stream.length = s.stream.length →
    fetchWord stream s.ip = some (w &&& ~~~ rsvdMask s.cfg.opw) →
    step s = .next t → step (withStream s stream) = .next (withStream t stream))

/-- From R109, R113 and R116: what a step does depends on no stream byte but the seven of its own
instruction. -/
def Obligations.StepReadsOnlyItsOwnWord : Prop :=
  ∀ (s t : State) (stream : List Byte), stream.length = s.stream.length →
    (stream.drop (7 * s.ip)).take 7 = (s.stream.drop (7 * s.ip)).take 7 →
    step s = .next t → step (withStream s stream) = .next (withStream t stream)

/-! ## What each instruction does (spec/41_load.md, 42_combine_shift.md) -/

/-- From R130: LOAD_CONST completes whenever B names a cell, for every C and D; else it faults on B. -/
def Obligations.LoadConstResult : Prop :=
  ∀ (s : State) (b : BitVec 11) (c : BitVec 19) (d : BitVec 12),
    (s.cfg.cellW.wf = true → b.toNat < s.memSize →
      exec (.loadConst b c d) s = .next (committed s b.toNat c.toNat)) ∧
    (s.memSize ≤ b.toNat →
      exec (.loadConst b c d) s = .next (faulted s .outOfBounds 5 (some .B) b.toNat none))

/-- From R131: LOAD_MEMORY completes whenever B and C name cells (whose values fit a cell), for every
D; else it faults on B, then on C. -/
def Obligations.LoadMemoryResult : Prop :=
  ∀ (s : State) (b : BitVec 11) (c : BitVec 19) (d : BitVec 12),
    (s.cellsFit → b.toNat < s.memSize → c.toNat < s.memSize →
      exec (.loadMemory b c d) s = .next (committed s b.toNat (s.mem.read c.toNat))) ∧
    (s.memSize ≤ b.toNat →
      exec (.loadMemory b c d) s = .next (faulted s .outOfBounds 5 (some .B) b.toNat none)) ∧
    (b.toNat < s.memSize → s.memSize ≤ c.toNat →
      exec (.loadMemory b c d) s = .next (faulted s .outOfBounds 5 (some .C) c.toNat none))

/-- From R142: STORE_MEMORY writes the exact sum when the three indices name cells and the sum fits;
else it faults on B, C, D, or on the sum. That the record of CellOverflow keeps R107's opcode, 10, in
a field of its own is the model's choice (log entry 8). -/
def Obligations.StoreMemoryResult : Prop :=
  ∀ (s : State) (b : BitVec 11) (c : BitVec 19) (d : BitVec 12),
    (b.toNat < s.memSize → c.toNat < s.memSize → d.toNat < s.memSize →
      (∀ bits, s.cfg.cellW = .finite bits →
        s.mem.read c.toNat + s.mem.read d.toNat < 2 ^ bits) →
      exec (.storeMemory b c d) s =
        .next (committed s b.toNat (s.mem.read c.toNat + s.mem.read d.toNat))) ∧
    (s.memSize ≤ b.toNat →
      exec (.storeMemory b c d) s = .next (faulted s .outOfBounds 5 (some .B) b.toNat none)) ∧
    (b.toNat < s.memSize → s.memSize ≤ c.toNat →
      exec (.storeMemory b c d) s = .next (faulted s .outOfBounds 5 (some .C) c.toNat none)) ∧
    (b.toNat < s.memSize → c.toNat < s.memSize → s.memSize ≤ d.toNat →
      exec (.storeMemory b c d) s = .next (faulted s .outOfBounds 5 (some .D) d.toNat none)) ∧
    (∀ bits, b.toNat < s.memSize → c.toNat < s.memSize → d.toNat < s.memSize →
      s.cfg.cellW = .finite bits → 2 ^ bits ≤ s.mem.read c.toNat + s.mem.read d.toNat →
      exec (.storeMemory b c d) s =
        .next (faulted s .cellOverflow 7 (some .B) b.toNat (some 10)))

/-- From R143: SHIFT_RIGHT writes `floor(x / 2^s)`, the whole cell value being the amount, when the
three indices name cells; else it faults on B, C or D. -/
def Obligations.ShiftRightResult : Prop :=
  ∀ (s : State) (b : BitVec 11) (c : BitVec 19) (d : BitVec 12),
    (s.cellsFit → b.toNat < s.memSize → c.toNat < s.memSize → d.toNat < s.memSize →
      exec (.shiftRight b c d) s =
        .next (committed s b.toNat (s.mem.read c.toNat / 2 ^ s.mem.read d.toNat))) ∧
    (s.memSize ≤ b.toNat →
      exec (.shiftRight b c d) s = .next (faulted s .outOfBounds 5 (some .B) b.toNat none)) ∧
    (b.toNat < s.memSize → s.memSize ≤ c.toNat →
      exec (.shiftRight b c d) s = .next (faulted s .outOfBounds 5 (some .C) c.toNat none)) ∧
    (b.toNat < s.memSize → c.toNat < s.memSize → s.memSize ≤ d.toNat →
      exec (.shiftRight b c d) s = .next (faulted s .outOfBounds 5 (some .D) d.toNat none))

/-- From R144: SHIFT_LEFT writes the exact `x * 2^s` when the three indices name cells and it fits;
else it faults on B, C, D, or on the result. That the record of CellOverflow keeps R107's opcode, 16,
in a field of its own is the model's choice (log entry 8). -/
def Obligations.ShiftLeftResult : Prop :=
  ∀ (s : State) (b : BitVec 11) (c : BitVec 19) (d : BitVec 12),
    (b.toNat < s.memSize → c.toNat < s.memSize → d.toNat < s.memSize →
      (∀ bits, s.cfg.cellW = .finite bits →
        s.mem.read c.toNat * 2 ^ s.mem.read d.toNat < 2 ^ bits) →
      exec (.shiftLeft b c d) s =
        .next (committed s b.toNat (s.mem.read c.toNat * 2 ^ s.mem.read d.toNat))) ∧
    (s.memSize ≤ b.toNat →
      exec (.shiftLeft b c d) s = .next (faulted s .outOfBounds 5 (some .B) b.toNat none)) ∧
    (b.toNat < s.memSize → s.memSize ≤ c.toNat →
      exec (.shiftLeft b c d) s = .next (faulted s .outOfBounds 5 (some .C) c.toNat none)) ∧
    (b.toNat < s.memSize → c.toNat < s.memSize → s.memSize ≤ d.toNat →
      exec (.shiftLeft b c d) s = .next (faulted s .outOfBounds 5 (some .D) d.toNat none)) ∧
    (∀ bits, b.toNat < s.memSize → c.toNat < s.memSize → d.toNat < s.memSize →
      s.cfg.cellW = .finite bits → 2 ^ bits ≤ s.mem.read c.toNat * 2 ^ s.mem.read d.toNat →
      exec (.shiftLeft b c d) s =
        .next (faulted s .cellOverflow 7 (some .B) b.toNat (some 16)))

/-- R141: with a finite cell width, only STORE_MEMORY and SHIFT_LEFT reach `CellOverflow`, exactly when
their indices name cells and the sum is `2^CELL_W` or more, or `x != 0` and `bitlen(x) + s > CELL_W`;
the fault writes nothing. The premises on the state are the invariant's. -/
def Obligations.OverflowOnlyFromAddAndShiftLeft : Prop :=
  ∀ (s : State) (bits : Nat) (b : BitVec 11) (c : BitVec 19) (d : BitVec 12),
    s.cfg.cellW = .finite bits → 19 ≤ bits → s.cellsFit →
    (∀ v op, exec (.loadConst b c d) s ≠ .next (faulted s .cellOverflow 7 (some .B) v op)) ∧
    (∀ v op, exec (.loadMemory b c d) s ≠ .next (faulted s .cellOverflow 7 (some .B) v op)) ∧
    (∀ v op, exec (.shiftRight b c d) s ≠ .next (faulted s .cellOverflow 7 (some .B) v op)) ∧
    ((∃ op, exec (.storeMemory b c d) s = .next (faulted s .cellOverflow 7 (some .B) b.toNat op)) ↔
      (b.toNat < s.memSize ∧ c.toNat < s.memSize ∧ d.toNat < s.memSize) ∧
        2 ^ bits ≤ s.mem.read c.toNat + s.mem.read d.toNat) ∧
    ((∃ op, exec (.shiftLeft b c d) s = .next (faulted s .cellOverflow 7 (some .B) b.toNat op)) ↔
      (b.toNat < s.memSize ∧ c.toNat < s.memSize ∧ d.toNat < s.memSize) ∧
        s.mem.read c.toNat ≠ 0 ∧ bits < Nat.size (s.mem.read c.toNat) + s.mem.read d.toNat)

/-- From R53: `STORE_MEMORY 0 0 0` doubles cell 0 exactly once. -/
def Obligations.StoreMemoryOfOneCellDoublesIt : Prop :=
  ∀ s : State, 0 < s.memSize → (∀ bits, s.cfg.cellW = .finite bits → 2 * s.mem.read 0 < 2 ^ bits) →
    ∃ t, exec (.storeMemory 0 0 0) s = .next t ∧ t.mem.read 0 = 2 * s.mem.read 0

/-- From R143, corner case `c = d`: a nonzero cell shifted right by itself gives 0. -/
def Obligations.ShiftRightByItselfGivesZero : Prop :=
  ∀ (s : State) (b : BitVec 11) (c : BitVec 19) (d : BitVec 12), c.toNat = d.toNat →
    s.cellsFit → b.toNat < s.memSize → c.toNat < s.memSize → s.mem.read c.toNat ≠ 0 →
    ∃ t, exec (.shiftRight b c d) s = .next t ∧ t.mem.read b.toNat = 0

/-- R80 of the two arity-2 opcodes: D has no effect. -/
def Obligations.FieldDIgnoredByArityTwo : Prop :=
  ∀ (s : State) (b : BitVec 11) (c : BitVec 19) (d : BitVec 12),
    exec (.loadConst b c d) s = exec (.loadConst b c 0) s ∧
    exec (.loadMemory b c d) s = exec (.loadMemory b c 0) s

/-! ## Frames (spec/40_execution.md R108, R109; 60_exceptions.md R165) -/

/-- The frame of all five instructions: an instruction that has a next state leaves the configuration,
the stream and the memory size alone, and either commits, when every cell but the one its B field
names reads as before, `ip` advances by one, the fault record is as before and the status changes
only to DONE, at the last instruction, or faults, when memory and `ip` are as before. -/
def Obligations.ExecFrame : Prop :=
  ∀ (i : Instr) (s t : State), exec i s = .next t →
    t.cfg = s.cfg ∧ t.stream = s.stream ∧ t.memSize = s.memSize ∧
    ((t.ip = s.ip + 1 ∧ t.fault = s.fault ∧
        t.status = (if s.ip + 1 = s.stream.length / 7 then .done else s.status) ∧
        ∀ a, a ≠ cellIndex i.fieldB → t.mem.read a = s.mem.read a) ∨
      (t.ip = s.ip ∧ t.mem = s.mem ∧ t.status = .fault ∧
        ∃ r, t.fault = some r ∧ r.k = some s.ip ∧ r.aux = some (7 * s.ip)))

/-- R109: a step commits to the existing cell that the B field of the fetched word names (R108), or
raises exactly one fault and changes nothing but `status` and `fault`. -/
def Obligations.StepIsAllOrNothing : Prop :=
  ∀ s t : State, step s = .next t →
    ∃ w, fetchWord s.stream s.ip = some w ∧
      (((decodeFields s.cfg.opw w).b.toNat < s.memSize ∧
          ∃ r, t = committed s (decodeFields s.cfg.opw w).b.toNat r) ∨
        (∃ kind field value opcode, t = faulted s kind kind.code field value opcode))

/-- From R41, R28 and R30: no number of steps writes the stream, the memory size or the
configuration. -/
def Obligations.StepsNeverWriteProgramOrSize : Prop :=
  ∀ (n : Nat) (s : State),
    (runSteps n s).stream = s.stream ∧ (runSteps n s).memSize = s.memSize ∧
      (runSteps n s).cfg = s.cfg

/-- From R50: a cell that no B field can name stays 0 through every run: it reads 0 after Start and
after every number of steps (a whole `run` is one such number). That this is also said where a
precondition of Start fails is the model's choice (log entry 23). -/
def Obligations.UnnameableCellsStayZero : Prop :=
  ∀ (s : State) (stream : List Byte) (n a m : Nat), 2048 ≤ a →
    (runSteps m (s.begin stream n)).mem.read a = 0

/-! ## Invariants -/

/-- Every step keeps the invariant: canonical memory, cells that exist and fit, and a status, `ip` and
fault record that belong together (R24, R25, R43, R162). -/
def Obligations.StepKeepsInv : Prop :=
  ∀ s t : State, s.Inv → Sys2Proof.Machine.step s = .next t → t.Inv

/-- The invariant holds at reset, in every configuration whose cell width is admitted. -/
def Obligations.ResetMeetsInv : Prop :=
  State.reset.Inv ∧ ∀ cfg : Config, cfg.cellW.wf = true → (State.resetWith cfg).Inv

/-- Every transition of the machine, the host's among them, keeps the invariant and the capacities,
whatever they are (R22, R196). -/
def Obligations.EveryTransitionKeepsInv : Prop :=
  ∀ (caps : Caps) (e : Event) (s t : State), s.Inv → s.WithinCaps caps →
    transition caps e s = .next t → t.Inv ∧ t.WithinCaps caps

/-- From R24 and R108: a step of a state of the invariant either faults at `ip`, or completes and
advances `ip` by exactly 1; it is DONE exactly when `ip` then is `K`, and RUN exactly when below. -/
def Obligations.IpAdvancesByOne : Prop :=
  ∀ s t : State, s.Inv → step s = .next t →
    (t.status = .fault ∧ t.ip = s.ip) ∨
    (t.ip = s.ip + 1 ∧ t.ip ≤ s.count ∧ (t.status = .done ↔ t.ip = s.count) ∧
      (t.status = .run ↔ t.ip < s.count))

/-! ## Runs

The spec has a run only where the preconditions of Start hold (40_execution.md R100, R122). That `run`
gives a state where they fail is the model's choice (log entry 23), and so is what the statements on
runs say of it there. -/

/-- From R112 and R100: where the Start port answers, which is where the preconditions of Start
hold, `run` is that Start, then steps. Where it refuses, `run` is the model's choice (log entry 23).
-/
def Obligations.RunIsStartThenSteps : Prop :=
  ∀ (caps : Caps) (s t : State) (stream : List Byte) (n : Nat), start caps stream n s = .next t →
    s.status ≠ .run ∧ stream.length ≤ caps.streamCap ∧ n ≤ caps.memCap ∧
      run s stream n = runSteps (stream.length / 7) t

/-- From R110, R112 and R198: every run ends, after at most `K` steps, in DONE with `ip = K` and no
fault, or in FAULT with a record; further steps change nothing. Where a precondition of Start fails,
the run is the model's choice (log entry 23). -/
def Obligations.RunEndsWithinStreamLength : Prop :=
  ∀ (s : State) (stream : List Byte) (n : Nat),
    (((run s stream n).status = .done ∧ (run s stream n).ip = stream.length / 7 ∧
        (run s stream n).fault = none) ∨
      ((run s stream n).status = .fault ∧ (run s stream n).fault ≠ none)) ∧
    ∀ m, stream.length / 7 ≤ m → runSteps m (s.begin stream n) = run s stream n

/-- From R116: a run that ends in a fault at instruction `k` ends alike whatever the instructions
after `k` are: they are never fetched. Where a precondition of Start fails, the run is the model's
choice (log entry 23). -/
def Obligations.FaultHidesLaterInstructions : Prop :=
  ∀ (s : State) (stream stream' : List Byte) (n k : Nat), stream.length = stream'.length →
    stream.take (7 * (k + 1)) = stream'.take (7 * (k + 1)) →
    (run s stream n).status = .fault → (run s stream n).ip = k →
    run s stream' n = withStream (run s stream n) stream'

/-- From R110 and R166: only Start and Reset change anything in DONE or FAULT. -/
def Obligations.StoppedRunLeftOnlyByStartOrReset : Prop :=
  ∀ (caps : Caps) (e : Event) (s t : State), s.status = .done ∨ s.status = .fault →
    transition caps e s = .next t → t ≠ s → (∃ stream n, e = .start stream n) ∨ e = .reset

/-- From R115 and R191: a run is a function of its stream, its memory size and the configuration; it
does not matter what an earlier run or reset left. Where a precondition of Start fails, the run is
the model's choice (log entry 23). -/
def Obligations.RunForgetsEarlierState : Prop :=
  ∀ (s s' : State) (stream : List Byte) (n : Nat), s.cfg = s'.cfg →
    run s stream n = run s' stream n

/-- From R101: a malformed stream runs nothing. Where a precondition of Start fails, the run is the
model's choice (log entry 23). -/
def Obligations.MalformedStreamRunsNothing : Prop :=
  ∀ (s : State) (stream : List Byte) (n : Nat), stream.length % 7 ≠ 0 →
    run s stream n = { cfg := s.cfg, stream := stream, memSize := n, mem := [], ip := 0, status := .fault,
                       fault := some { kind := .malformedStream, code := 3, k := none, field := none,
                                       value := some stream.length, aux := some (stream.length % 7),
                                       opcode := none } }

/-! ## Host ports (spec/40_execution.md R100, R119, R122; 70_reset_and_hazards.md R190) -/

/-- R100: the effect of Start when its preconditions hold. -/
def Obligations.StartEffect : Prop :=
  ∀ (caps : Caps) (stream : List Byte) (n : Nat) (s : State), s.status ≠ .run →
    stream.length ≤ caps.streamCap → n ≤ caps.memCap →
    ∃ t, start caps stream n s = .next t ∧ t.cfg = s.cfg ∧ t.stream = stream ∧
      t.len = stream.length ∧ t.memSize = n ∧ (∀ a, t.mem.read a = 0) ∧ t.ip = 0 ∧
      (stream.length % 7 ≠ 0 → t.status = .fault ∧
        t.fault = some { kind := .malformedStream, code := 3, k := none, field := none,
                         value := some stream.length, aux := some (stream.length % 7),
                         opcode := none }) ∧
      (stream.length = 0 → t.status = .done ∧ t.fault = none) ∧
      (stream.length % 7 = 0 → stream.length ≠ 0 → t.status = .run ∧ t.fault = none)

/-- From R190 and R30: Reset, at any time, leaves the reset values. The configuration stays: it is how
the machine was built (log entry 17). -/
def Obligations.ResetValues : Prop :=
  (∀ s : State, hostReset s = { cfg := s.cfg, stream := [], memSize := 0, mem := [], ip := 0,
                                status := .idle, fault := none }) ∧
  State.reset = { cfg := { opw := .four, cellW := .finite 64, rsvdCheck := false }, stream := [],
                  memSize := 0, mem := [], ip := 0, status := .idle, fault := none }

/-- R119: the dump port. -/
def Obligations.DumpPortAnswers : Prop :=
  ∀ (caps : Caps) (s : State) (first stop : Int), s.status ≠ .run →
    ((0 ≤ first ∧ first ≤ stop ∧ stop ≤ s.memSize) →
      ∃ l, dump s first stop = .ok (.ok l) ∧ l.length = (stop - first).toNat ∧
        ∀ j, j < l.length →
          l[j]? = some (first.toNat + j, s.mem.read (first.toNat + j))) ∧
    (¬(0 ≤ first ∧ first ≤ stop ∧ stop ≤ s.memSize) →
      dump s first stop = .ok (.error { first := first, stop := stop, memSize := s.memSize })) ∧
    transition caps (.dump first stop) s = .next s

/-- From R100, R119 and R122: what a host must not ask for has no move; the names of the refusals are
the model's (log entry 12). -/
def Obligations.HostDutiesHaveNoMove : Prop :=
  ∀ (caps : Caps) (stream : List Byte) (n : Nat) (first stop : Int) (s : State),
    (s.status = .run → transition caps (.start stream n) s = .refused .startWhileRunning ∧
      transition caps (.dump first stop) s = .refused .dumpWhileRunning) ∧
    (s.status ≠ .run → caps.streamCap < stream.length →
      transition caps (.start stream n) s = .refused .streamAboveCap) ∧
    (s.status ≠ .run → stream.length ≤ caps.streamCap → caps.memCap < n →
      transition caps (.start stream n) s = .refused .memoryAboveCap)

/-- R118: the status port shows status, `ip`, fault, `mem_size` and `L`, at any time, and a read changes
nothing. -/
def Obligations.StatusPortShowsState : Prop :=
  ∀ (caps : Caps) (s : State),
    readStatus s = { status := s.status, ip := s.ip, fault := s.fault, memSize := s.memSize,
                     len := s.stream.length } ∧
    transition caps .readStatus s = .next s

/-- R161: the fault codes: each kind's number, which stands in the `code` field of each record of the
kind, the host's and the toolchain's records among them; 0 when there is no record. -/
def Obligations.FaultCodes : Prop :=
  faultCode none = 0 ∧ FaultKind.assemblyError.code = 1 ∧ FaultKind.fieldOverflow.code = 2 ∧
    FaultKind.malformedStream.code = 3 ∧ FaultKind.unknownOpcode.code = 4 ∧
    FaultKind.outOfBounds.code = 5 ∧ FaultKind.rangeError.code = 6 ∧
    FaultKind.cellOverflow.code = 7 ∧ FaultKind.reservedBits.code = 8 ∧
    (∀ r : FaultRecord, faultCode (some r) = r.code) ∧
    (∀ line reason, (asmErrorRecord (.assemblyError line reason)).code = 1) ∧
    (∀ line o, (asmErrorRecord (.fieldOverflow line o)).code = 2) ∧
    (∀ o, (fieldOverflowRecord o).code = 2) ∧
    (∀ len, (FaultRecord.malformedStream len).code = 3) ∧
    (∀ op k, (FaultRecord.unknownOpcode op k).code = 4) ∧
    (∀ f v k, (FaultRecord.outOfBounds f v k).code = 5) ∧
    (∀ e : RangeError, e.record.code = 6) ∧
    (∀ op b k, (FaultRecord.cellOverflow op b k).code = 7) ∧
    (∀ bits k, (FaultRecord.reservedBits bits k).code = 8)

/-- From R162 and R119: the record of every failed dump is the row of `RangeError`: `value` is `start`
and `aux` is `end`, and the error gives `mem_size` beside it. That this record's values are integers is
the model's reading (log entry 18). -/
def Obligations.DumpErrorRecordAsTabled : Prop :=
  ∀ (s : State) (first stop : Int) (e : RangeError), dump s first stop = .ok (.error e) →
    e.memSize = s.memSize ∧
    e.record = { kind := .rangeError, code := 6, k := none, field := none, value := some first,
                 aux := some stop, opcode := none }

/-! ## The toolchain (spec/30_encoding.md §7) -/

/-- R93: on success the log has one entry for each non-blank line, in source order: entry `j` is that
of the mnemonic and operands on non-blank line `j`; and the stream is seven bytes for each non-blank
line, in the same order, each what the encoder gives for the line's entry. An input with no non-blank
line gives the empty stream and log. -/
def Obligations.AssembledStreamMatchesLog : Prop :=
  ∀ (opw : OpWidth) (text : List Char),
    (∀ bytes log, assemble opw text = .ok (bytes, log) →
      bytes.length = 7 * log.length ∧
      log.length = ((splitLines text).filter (fun l => !(tokens l).isEmpty)).length ∧
      ∀ j e, log[j]? = some e →
        (∃ l p, ((splitLines text).filter (fun l => !(tokens l).isEmpty))[j]? = some l ∧
          parseTokens (tokens l) = .ok p ∧ e = p.logEntry) ∧
        encodeFields opw e.a e.b e.c (e.d.getD 0) = .ok ((bytes.drop (7 * j)).take 7)) ∧
    ((∀ l ∈ splitLines text, tokens l = []) → assemble opw text = .ok ([], []))

/-- From R91 and R76: at `OPW = 4` every SHIFT_LEFT line with three decimal operands fails on its
opcode, whatever the operands. -/
def Obligations.ShiftLeftLinesFailAtWidthFour : Prop :=
  ∀ (line : Nat) (toks : List (List Char)) (operands : List Nat),
    parseTokens toks = .ok { mnemonic := .shiftLeft, operands := operands } →
    assembleLine .four line toks = .error (.fieldOverflow line ⟨some .opcode, 16⟩)

/-- From R97 and R94: printing a canonical word whose D is 0 when its opcode has two operands, and
assembling the text, gives the word back. -/
def Obligations.PrintedWordAssemblesBack : Prop :=
  ∀ (opw : OpWidth) (w : InstrWord), canonical opw w = true →
    (∀ m, Mnemonic.ofCode (decodeFields opw w).op = some m → m.arity = 2 → wordD w = 0#12) →
    ∃ text entry, printWord opw w = .ok text ∧
      assemble opw text = .ok (bytesOfWord w, [entry])

/-- From R93, R68 and R160: what the assembler produces for a machine's own opcode width never stops
that machine but on its data: a run of it ends in DONE, or in FAULT with `OutOfBounds` or
`CellOverflow`. Where a precondition of Start fails, the run is the model's choice (log entry 23).
-/
def Obligations.AssembledStreamsFaultOnlyOnData : Prop :=
  ∀ (s : State) (text : List Char) (bytes : List Byte) (log : List LogEntry) (n : Nat),
    assemble s.cfg.opw text = .ok (bytes, log) →
    (run s bytes n).status = .done ∨
    ((run s bytes n).status = .fault ∧
      ∃ r, (run s bytes n).fault = some r ∧ (r.kind = .outOfBounds ∨ r.kind = .cellOverflow))
end

