-- ==== Sys2Proof/Laws/Arithmetic.lean ====
section
/-! SUPPORT. Laws/Arithmetic.lean: the operations of Machine/Flags.lean are the exact ones of
spec/42_combine_shift.md R141, R143 and R144, computed without a huge power of two. -/

namespace Sys2Proof.Machine

@[simp] theorem cellHolds_unbounded (r : Nat) : cellHolds .unbounded r = true := rfl

@[simp] theorem cellHolds_finite (bits r : Nat) :
    cellHolds (.finite bits) r = true ↔ r < 2 ^ bits := by
  simp [cellHolds]

theorem cellHolds_zero (w : CellWidth) : cellHolds w 0 = true := by
  cases w <;> simp

/-- A smaller result fits where a greater one does. -/
theorem cellHolds_of_le {w : CellWidth} {r r' : Nat} (h : cellHolds w r = true) (hle : r' ≤ r) :
    cellHolds w r' = true := by
  cases w with
  | unbounded => rfl
  | finite bits =>
    rw [cellHolds_finite] at h ⊢
    omega

theorem lt_two_pow_bitLength (x : Nat) : x < 2 ^ bitLength x := by
  unfold bitLength
  split_ifs with h
  · simp [h]
  · exact Nat.lt_log2_self

/-- `bitlen(x)` is at most `n` exactly when `x < 2^n`. -/
theorem bitLength_le_iff (x n : Nat) : bitLength x ≤ n ↔ x < 2 ^ n := by
  constructor
  · intro h
    exact (lt_two_pow_bitLength x).trans_le (Nat.pow_le_pow_right (by omega) h)
  · intro h
    unfold bitLength
    split_ifs with hx
    · omega
    · exact (Nat.log2_lt hx).mpr h

/-- `shiftRightNat` is `floor(x / 2^s)` (42_combine_shift.md R143). -/
theorem shiftRightNat_eq (x s : Nat) : shiftRightNat x s = x / 2 ^ s := by
  unfold shiftRightNat
  split_ifs with h
  · exact (Nat.div_eq_of_lt ((bitLength_le_iff x s).mp h)).symm
  · rfl

theorem shiftRightNat_le (x s : Nat) : shiftRightNat x s ≤ x := by
  rw [shiftRightNat_eq]
  exact Nat.div_le_self x _

/-- `shiftLeftNat` is `x * 2^s` (42_combine_shift.md R144). -/
theorem shiftLeftNat_eq (x s : Nat) : shiftLeftNat x s = x * 2 ^ s := by
  unfold shiftLeftNat
  split_ifs with h
  · simp [h]
  · rfl

/-- The width test of a left shift is the width check of its exact result
(42_combine_shift.md R144). -/
theorem shiftLeftHolds_eq (w : CellWidth) (x s : Nat) :
    shiftLeftHolds w x s = cellHolds w (x * 2 ^ s) := by
  cases w with
  | unbounded => rfl
  | finite bits =>
    rw [Bool.eq_iff_iff, cellHolds_finite]
    by_cases hx : x = 0
    · simp [shiftLeftHolds, hx]
    · have hx1 : 1 ≤ x := by omega
      simp only [shiftLeftHolds, Bool.not_eq_true', Bool.and_eq_false_iff,
        Bool.or_eq_false_iff, decide_eq_false_iff_not, not_le]
      simp only [bne_eq_false_iff_eq, hx, false_or]
      constructor
      · rintro ⟨hs, hlt⟩
        have h2 : 2 ^ (bits - s) * 2 ^ s = 2 ^ bits := by
          rw [← Nat.pow_add, Nat.sub_add_cancel hs.le]
        rw [← h2]
        exact Nat.mul_lt_mul_of_pos_right hlt (by positivity)
      · intro h
        have hs : s < bits := by
          by_contra hs
          have hp : 2 ^ bits ≤ 2 ^ s := Nat.pow_le_pow_right (by omega) (by omega)
          have := Nat.mul_le_mul hx1 hp
          omega
        refine ⟨hs, ?_⟩
        have h2 : 2 ^ (bits - s) * 2 ^ s = 2 ^ bits := by
          rw [← Nat.pow_add, Nat.sub_add_cancel hs.le]
        rw [← h2] at h
        exact Nat.lt_of_mul_lt_mul_right h

end Sys2Proof.Machine
end

