-- ==== Sys2Proof/Laws/Assembler.lean ====
section
/-! SUPPORT. Laws/Assembler.lean: what the tokenizer, the operand reader and the decimal printer of the
toolchain do (spec/30_encoding.md R85 to R88, R97). -/

namespace Sys2Proof.Machine

/-! ## Lines and tokens -/

/-- A text without a line feed is one line. -/
theorem splitLines_of_no_lf {l : List Char} (h : ∀ c ∈ l, c ≠ '\n') : splitLines l = [l] := by
  induction l with
  | nil => rfl
  | cons c l ih =>
    rw [splitLines, if_neg (h c (by simp)), ih fun x hx => h x (by simp [hx])]

/-- Characters that are not blank extend the token being read. -/
theorem tokensFrom_append {w : List Char} (h : ∀ c ∈ w, isBlankChar c = false) (cur rest : List Char) :
    tokensFrom cur (w ++ rest) = tokensFrom (w.reverse ++ cur) rest := by
  induction w generalizing cur with
  | nil => rfl
  | cons c w ih =>
    rw [List.cons_append, tokensFrom, if_neg (by rw [h c (by simp)]; simp),
      ih fun x hx => h x (by simp [hx])]
    simp

/-- A word at the end of a line is its last token. -/
theorem tokensFrom_last {w : List Char} (h : ∀ c ∈ w, isBlankChar c = false) (h0 : w ≠ []) :
    tokensFrom [] w = [w] := by
  have hw := tokensFrom_append h [] []
  rw [List.append_nil] at hw
  rw [hw, tokensFrom]
  simp [h0]

/-- A word before a space is the next token. -/
theorem tokensFrom_space {w : List Char} (h : ∀ c ∈ w, isBlankChar c = false) (h0 : w ≠ [])
    (rest : List Char) : tokensFrom [] (w ++ ' ' :: rest) = w :: tokensFrom [] rest := by
  rw [tokensFrom_append h, tokensFrom, if_pos (by decide)]
  simp [h0]

/-- The non-blank lines, in order, with their tokens. -/
theorem numberedLines_tokens (ls : List (List Char)) (n : Nat) :
    (numberedLines n ls).map Prod.snd = (ls.filter fun l => !(tokens l).isEmpty).map tokens := by
  induction ls generalizing n with
  | nil => rfl
  | cons l ls ih =>
    rw [numberedLines]
    by_cases h : (tokens l).isEmpty = true <;> simp [h, ih]

/-! ## Assembled lines -/

/-- What a line that assembles is: it parses, its bytes are the encoder's for its operands, and its
log entry is that of the parsed line. -/
theorem assembleLine_ok {opw : OpWidth} {line : Nat} {toks : List (List Char)} {bytes : List Byte}
    {e : LogEntry} (h : assembleLine opw line toks = .ok (bytes, e)) :
    ∃ p, parseTokens toks = .ok p ∧ p.bytes opw = .ok bytes ∧ e = p.logEntry := by
  unfold assembleLine at h
  split at h
  · cases h
  · rename_i p hp
    split at h
    · cases h
    · rename_i bs hb
      obtain ⟨rfl, rfl⟩ := Prod.mk.inj (Except.ok.inj h)
      exact ⟨p, hp, hb, rfl⟩

/-- Lines that assemble do so line by line: the first line's bytes and entry stand first. -/
theorem assembleLines_cons_ok {opw : OpWidth} {line : Nat} {toks : List (List Char)}
    {rest : List (Nat × List (List Char))} {bytes : List Byte} {log : List LogEntry}
    (h : assembleLines opw ((line, toks) :: rest) = .ok (bytes, log)) :
    ∃ b e bs es, assembleLine opw line toks = .ok (b, e) ∧ assembleLines opw rest = .ok (bs, es) ∧
      bytes = b ++ bs ∧ log = e :: es := by
  rw [assembleLines] at h
  split at h
  · cases h
  · rename_i b e he
    split at h
    · cases h
    · rename_i bs es hs
      obtain ⟨rfl, rfl⟩ := Prod.mk.inj (Except.ok.inj h)
      exact ⟨b, e, bs, es, he, hs, rfl, rfl⟩

/-! ## Decimal numbers -/

theorem digitChar_spec {n : Nat} (h : n < 10) :
    isDecimalDigit (digitChar n) = true ∧ (digitChar n).toNat = 48 + n ∧
      isBlankChar (digitChar n) = false ∧ digitChar n ≠ '\n' := by
  interval_cases n <;> decide

theorem digitsValue_append (xs ys : List Char) (acc : Nat) :
    digitsValue acc (xs ++ ys) = digitsValue (digitsValue acc xs) ys := by
  induction xs generalizing acc with
  | nil => rfl
  | cons x xs ih => exact ih _

theorem digitsValue_single (acc : Nat) (c : Char) :
    digitsValue acc [c] = acc * 10 + (c.toNat - 48) := by
  unfold digitsValue digitsValue
  rfl

/-- The decimal digits of a natural are digits, and spell it. -/
theorem decimalFrom_spec (fuel n : Nat) (h : n < fuel) :
    decimalFrom fuel n ≠ [] ∧ digitsValue 0 (decimalFrom fuel n) = n ∧
      ∀ c ∈ decimalFrom fuel n, isDecimalDigit c = true ∧ isBlankChar c = false ∧ c ≠ '\n' := by
  induction fuel generalizing n with
  | zero => omega
  | succ fuel ih =>
    rw [decimalFrom]
    split_ifs with h10
    · obtain ⟨hd, hv, hb, hn⟩ := digitChar_spec h10
      refine ⟨by simp, ?_, fun c hc => ?_⟩
      · rw [digitsValue_single, hv, Nat.add_sub_cancel_left]
        omega
      · rw [List.mem_singleton.mp hc]
        exact ⟨hd, hb, hn⟩
    · obtain ⟨_, hv', hc'⟩ := ih (n / 10) (by omega)
      obtain ⟨hd, hv, hb, hn⟩ := digitChar_spec (Nat.mod_lt n (by omega : 10 > 0))
      refine ⟨by simp, ?_, fun c hc => ?_⟩
      · rw [digitsValue_append, hv', digitsValue_single, hv, Nat.add_sub_cancel_left]
        omega
      · rcases List.mem_append.mp hc with hc | hc
        · exact hc' c hc
        · rw [List.mem_singleton.mp hc]
          exact ⟨hd, hb, hn⟩

theorem decimal_spec (n : Nat) :
    decimal n ≠ [] ∧ digitsValue 0 (decimal n) = n ∧
      ∀ c ∈ decimal n, isDecimalDigit c = true ∧ isBlankChar c = false ∧ c ≠ '\n' :=
  decimalFrom_spec (n + 1) n (by omega)

/-- A printed number is read back. -/
theorem operandValue_decimal (n : Nat) : operandValue (decimal n) = some n := by
  obtain ⟨h0, hv, hc⟩ := decimal_spec n
  have h1 : (decimal n).isEmpty = false := by simpa using h0
  have h2 : (decimal n).all isDecimalDigit = true := List.all_eq_true.mpr fun c hx => (hc c hx).1
  rw [operandValue, h1, h2]
  simp [hv]

/-! ## Mnemonics -/

/-- A mnemonic's spelling is one token, and is read back. -/
theorem mnemonicSpelling_spec (m : Mnemonic) :
    mnemonicSpelling m ≠ [] ∧ (∀ c ∈ mnemonicSpelling m, isBlankChar c = false ∧ c ≠ '\n') ∧
      mnemonicOfToken (mnemonicSpelling m) = some m := by
  have hall : ∀ c ∈ mnemonicSpelling m, (!isBlankChar c && c != '\n') = true := by
    rw [← List.all_eq_true]
    cases m <;> decide
  refine ⟨by cases m <;> simp [mnemonicSpelling], fun c hc => by simpa using hall c hc, ?_⟩
  cases m <;> decide

end Sys2Proof.Machine
end

