-- ==== Sys2Proof/Laws/Codec.lean ====
section
/-! SUPPORT. Laws/Codec.lean: the byte order, the fields of a word as numbers, the opcode map in both
directions, and what the fetch finds where a word was placed. -/

namespace Sys2Proof

/-! ## Byte order -/

/-- The seven bytes of a word, joined again, are the word. -/
@[simp] theorem be56_bytesOfWord (w : InstrWord) : be56 (bytesOfWord w) = some w := by
  simp only [bytesOfWord, be56, Option.some.injEq]
  refine BitVec.eq_of_getLsbD_eq fun i hi => ?_
  simp only [BitVec.getLsbD_append, BitVec.getLsbD_extractLsb']
  interval_cases i <;> simp

@[simp] theorem bytesOfWord_length (w : InstrWord) : (bytesOfWord w).length = 7 := rfl

/-- Only seven bytes make a word. -/
theorem be56_length {bs : List Byte} {w : InstrWord} (h : be56 bs = some w) : bs.length = 7 := by
  unfold be56 at h
  split at h
  · rfl
  · cases h

/-- Seven bytes always make a word. -/
theorem be56_of_length {bs : List Byte} (h : bs.length = 7) : ∃ w, be56 bs = some w := by
  match bs, h with
  | [b0, b1, b2, b3, b4, b5, b6], _ => exact ⟨_, rfl⟩

/-! ## Fields as numbers -/

theorem wordOp_eq (opw : OpWidth) (w : InstrWord) :
    wordOp opw w = w.toNat / 2 ^ 49 % 2 ^ opw.bits := by
  simp [wordOp, Nat.shiftRight_eq_div_pow]

theorem wordB_toNat (w : InstrWord) : (wordB w).toNat = w.toNat / 2 ^ 38 % 2 ^ 11 := by
  simp [wordB, Nat.shiftRight_eq_div_pow]

theorem wordC_toNat (w : InstrWord) : (wordC w).toNat = w.toNat / 2 ^ 12 % 2 ^ 19 := by
  simp [wordC, Nat.shiftRight_eq_div_pow]

theorem wordD_toNat (w : InstrWord) : (wordD w).toNat = w.toNat % 2 ^ 12 := by
  simp [wordD]

theorem wordOp_lt (opw : OpWidth) (w : InstrWord) : wordOp opw w < 2 ^ opw.bits := by
  rw [wordOp_eq]
  exact Nat.mod_lt _ (by positivity)

/-- Fields that fit their ranges are packed side by side. -/
theorem packFields_eq {op b c d : Nat} (hb : b < 2 ^ 11) (hc : c < 2 ^ 19) (hd : d < 2 ^ 12) :
    packFields op b c d = op * 2 ^ 49 + b * 2 ^ 38 + c * 2 ^ 12 + d := by
  have h1 : c <<< 12 ||| d = c * 2 ^ 12 + d := by
    rw [← Nat.shiftLeft_add_eq_or_of_lt hd, Nat.shiftLeft_eq]
  have h2 : b <<< 38 ||| (c <<< 12 ||| d) = b * 2 ^ 38 + (c * 2 ^ 12 + d) := by
    rw [h1, ← Nat.shiftLeft_add_eq_or_of_lt (by omega), Nat.shiftLeft_eq]
  unfold packFields
  rw [Nat.or_assoc, Nat.or_assoc, h2, ← Nat.shiftLeft_add_eq_or_of_lt (by omega), Nat.shiftLeft_eq]
  omega

/-! ## The opcode map -/

@[simp] theorem Mnemonic.ofCode_code (m : Mnemonic) : Mnemonic.ofCode m.code = some m := by
  cases m <;> rfl

/-- The map's other direction: only its own code gives a mnemonic. -/
theorem Mnemonic.code_of_ofCode {code : Nat} {m : Mnemonic} (h : Mnemonic.ofCode code = some m) :
    m.code = code := by
  simpa using List.find?_some h

@[simp] theorem Instr.ofParts_mnemonic (m : Mnemonic) (b : BitVec 11) (c : BitVec 19)
    (d : BitVec 12) : (Instr.ofParts m b c d).mnemonic = m := by
  cases m <;> rfl

@[simp] theorem Instr.ofParts_fieldB (m : Mnemonic) (b : BitVec 11) (c : BitVec 19)
    (d : BitVec 12) : (Instr.ofParts m b c d).fieldB = b := by
  cases m <;> rfl

@[simp] theorem Instr.ofParts_fieldC (m : Mnemonic) (b : BitVec 11) (c : BitVec 19)
    (d : BitVec 12) : (Instr.ofParts m b c d).fieldC = c := by
  cases m <;> rfl

@[simp] theorem Instr.ofParts_fieldD (m : Mnemonic) (b : BitVec 11) (c : BitVec 19)
    (d : BitVec 12) : (Instr.ofParts m b c d).fieldD = d := by
  cases m <;> rfl

/-- Seven bytes are read as their word. -/
theorem decodeBytes_of_be56 {bs : List Byte} {w : InstrWord} (h : be56 bs = some w)
    (opw : OpWidth) : decodeBytes opw bs = decodeWord opw w := by
  rw [decodeBytes, h]

/-- The table's decoder answers what the decoder reads at one of the two widths, and
`tableOpWidth` is such a width. -/
theorem decodeWord_tableOpWidth {n w : Nat} {i : Instr} (h : decodeTableWord n w = some i)
    (opw : OpWidth) : decodeWord (tableOpWidth opw n w) (tableWord n w) = .ok i := by
  have hd : decodeWord .four (tableWord n w) = .ok i ∨ decodeWord .five (tableWord n w) = .ok i := by
    unfold decodeTableWord at h
    simp only [decodeBytes_of_be56 (be56_bytesOfWord _)] at h
    cases h4 : decodeWord .four (tableWord n w) with
    | ok j => rw [h4] at h; exact .inl (congrArg _ (Option.some.inj h))
    | error e =>
      rw [h4] at h
      cases h5 : decodeWord .five (tableWord n w) with
      | ok j => rw [h5] at h; exact .inr (congrArg _ (Option.some.inj h))
      | error e => rw [h5] at h; cases h
  have other : decodeWord opw (tableWord n w) ≠ .ok i →
      decodeWord opw.other (tableWord n w) = .ok i := by
    intro hn
    cases opw with
    | four => exact hd.resolve_left hn
    | five => exact hd.resolve_right hn
  unfold tableOpWidth
  rw [h]
  cases hc : decodeWord opw (tableWord n w) with
  | ok j =>
    dsimp only
    split_ifs with hij
    · rw [hc, hij]
    · exact other (by rw [hc]; exact fun he => hij (Except.ok.inj he).symm)
  | error e => exact other (by rw [hc]; exact fun he => by cases he)

end Sys2Proof

namespace Sys2Proof.Machine

/-- The fetch finds the word that was placed. -/
@[simp] theorem fetchWord_placeWord (stream : List Byte) (k : Nat) (w : InstrWord) :
    fetchWord (placeWord stream k w) k = some w := by
  have hlen : ((stream ++ List.replicate (7 * k - stream.length) 0#8).take (7 * k)).length =
      7 * k := by
    simp only [List.length_take, List.length_append, List.length_replicate]
    omega
  rw [fetchWord, placeWord, List.append_assoc, List.drop_left' hlen,
    List.take_left' (bytesOfWord_length w), be56_bytesOfWord]

end Sys2Proof.Machine
end

