-- ==== Sys2Proof/Laws/Memory.lean ====
section
/-! SUPPORT. Laws/Memory.lean: what the data memory's operations do to every cell, and that they keep
its canonical form. -/

namespace Sys2Proof.Machine

@[simp] theorem Memory.read_nil (i : Nat) : Memory.read [] i = 0 := rfl

theorem Memory.read_cons (p : DataCell) (m : Memory) (i : Nat) :
    Memory.read (p :: m) i = if p.1 = i then p.2 else Memory.read m i := rfl

theorem Memory.erase_cons (p : DataCell) (m : Memory) (i : Nat) :
    Memory.erase (p :: m) i = if p.1 = i then Memory.erase m i else p :: Memory.erase m i := by
  by_cases h : p.1 = i <;> simp [Memory.erase, h]

theorem Memory.read_erase (m : Memory) (i j : Nat) :
    (m.erase i).read j = if j = i then 0 else m.read j := by
  induction m with
  | nil => simp [Memory.erase]
  | cons p m ih =>
    rw [Memory.erase_cons]
    by_cases h : p.1 = i
    · rw [if_pos h, ih, Memory.read_cons, h]
      split_ifs with hj hi <;> simp_all
    · rw [if_neg h, Memory.read_cons, Memory.read_cons, ih]
      split_ifs <;> simp_all

theorem Memory.mem_erase {m : Memory} {i : Nat} {p : DataCell} :
    p ∈ m.erase i ↔ p ∈ m ∧ p.1 ≠ i := by
  simp [Memory.erase]

theorem Memory.mem_insert {m : Memory} {i v : Nat} {p : DataCell} :
    p ∈ m.insert i v ↔ p = (i, v) ∨ p ∈ m := by
  induction m with
  | nil => simp [Memory.insert]
  | cons q m ih =>
    rw [Memory.insert]
    split_ifs
    · simp
    · simp only [List.mem_cons, ih]; tauto

/-- Inserting reads back, in a memory that has no entry for the cell. -/
theorem Memory.read_insert {m : Memory} {i : Nat} (v : Nat) (h : ∀ p ∈ m, p.1 ≠ i) (j : Nat) :
    (m.insert i v).read j = if j = i then v else m.read j := by
  induction m with
  | nil =>
    rw [Memory.insert, Memory.read_cons]
    by_cases hj : j = i
    · simp [hj]
    · simp [hj, Ne.symm hj]
  | cons q m ih =>
    have hq : q.1 ≠ i := h q (by simp)
    have ih' := ih (fun p hp => h p (by simp [hp]))
    rw [Memory.insert]
    split_ifs with h1 h2 h2
    · simp [Memory.read_cons, h2]
    · rw [Memory.read_cons]; simp [Ne.symm h2]
    · rw [Memory.read_cons, ih', if_pos h2, if_neg (by rw [h2]; exact hq)]
    · rw [Memory.read_cons, Memory.read_cons, ih', if_neg h2]

/-- What a write does to every cell: the written one reads the value, every other as before. It
needs no canonical form. -/
theorem Memory.read_write (m : Memory) (i v j : Nat) :
    (m.write i v).read j = if j = i then v else m.read j := by
  unfold Memory.write
  split_ifs with hv hj hj
  · rw [Memory.read_erase, if_pos hj, hv]; rfl
  · rw [Memory.read_erase, if_neg hj]
  · rw [Memory.read_insert v (fun p hp => (Memory.mem_erase.mp hp).2), if_pos hj]
  · rw [Memory.read_insert v (fun p hp => (Memory.mem_erase.mp hp).2), if_neg hj,
      Memory.read_erase, if_neg hj]

@[simp] theorem Memory.read_write_same (m : Memory) (i v : Nat) : (m.write i v).read i = v := by
  rw [Memory.read_write, if_pos rfl]

theorem Memory.read_write_other (m : Memory) {i j : Nat} (v : Nat) (h : j ≠ i) :
    (m.write i v).read j = m.read j := by
  rw [Memory.read_write, if_neg h]

/-- An entry of a written memory is the written cell or was there before. -/
theorem Memory.mem_write {m : Memory} {i v : Nat} {p : DataCell} (h : p ∈ m.write i v) :
    p = (i, v) ∨ p ∈ m := by
  unfold Memory.write at h
  split_ifs at h
  · exact .inr (Memory.mem_erase.mp h).1
  · exact (Memory.mem_insert.mp h).imp_right fun hm => (Memory.mem_erase.mp hm).1

/-! ## Canonical form -/

theorem Memory.wf_nil : Memory.wf [] := ⟨List.Pairwise.nil, by simp⟩

theorem Memory.erase_wf {m : Memory} (h : m.wf) (i : Nat) : (m.erase i).wf :=
  ⟨h.1.sublist (List.filter_sublist), fun p hp => h.2 p (Memory.mem_erase.mp hp).1⟩

theorem Memory.insert_wf {m : Memory} {i v : Nat} (h : m.wf) (hi : ∀ p ∈ m, p.1 ≠ i) (hv : v ≠ 0) :
    (m.insert i v).wf := by
  refine ⟨?_, fun p hp => ?_⟩
  · have h1 := h.1
    clear h
    induction m with
    | nil => simp [Memory.insert]
    | cons q m ih =>
      have hq : q.1 ≠ i := hi q (by simp)
      have ⟨hqm, hm⟩ := List.pairwise_cons.mp h1
      rw [Memory.insert]
      split_ifs with hlt
      · refine List.pairwise_cons.mpr ⟨fun p hp => ?_, h1⟩
        rcases List.mem_cons.mp hp with rfl | hp
        · exact hlt
        · exact hlt.trans (hqm p hp)
      · refine List.pairwise_cons.mpr ⟨fun p hp => ?_, ih (fun p hp => hi p (by simp [hp])) hm⟩
        rcases Memory.mem_insert.mp hp with rfl | hp
        · show q.1 < i
          omega
        · exact hqm p hp
  · rcases Memory.mem_insert.mp hp with rfl | hp
    · exact hv
    · exact h.2 p hp

/-- A write keeps the canonical form. -/
theorem Memory.write_wf {m : Memory} (h : m.wf) (i v : Nat) : (m.write i v).wf := by
  unfold Memory.write
  split_ifs with hv
  · exact Memory.erase_wf h i
  · exact Memory.insert_wf (Memory.erase_wf h i) (fun p hp => (Memory.mem_erase.mp hp).2) hv

/-- A cell reads 0 or the value of one of its entries. -/
theorem Memory.read_eq_zero_or_mem (m : Memory) (i : Nat) :
    m.read i = 0 ∨ (i, m.read i) ∈ m := by
  induction m with
  | nil => exact .inl rfl
  | cons p m ih =>
    rw [Memory.read_cons]
    split_ifs with h
    · exact .inr (by rw [← h]; simp)
    · exact ih.imp_right (List.mem_cons_of_mem p)

/-- In a canonical memory the entries are exactly the nonzero cells. -/
theorem Memory.mem_iff_read {m : Memory} (h : m.wf) {i v : Nat} (hv : v ≠ 0) :
    (i, v) ∈ m ↔ m.read i = v := by
  induction m with
  | nil => simp [Ne.symm hv]
  | cons p m ih =>
    have ⟨hp, hm⟩ := List.pairwise_cons.mp h.1
    have ih' := ih ⟨hm, fun q hq => h.2 q (by simp [hq])⟩
    rw [Memory.read_cons]
    split_ifs with hi
    · constructor
      · intro hmem
        rcases List.mem_cons.mp hmem with heq | hmem
        · exact congrArg Prod.snd heq.symm
        · have := hp _ hmem
          simp only at this
          omega
      · intro hpv
        have : (i, v) = p := by rw [← hi, ← hpv]
        simp [this]
    · rw [← ih', List.mem_cons]
      constructor
      · rintro (heq | hmem)
        · exact absurd (congrArg Prod.fst heq).symm hi
        · exact hmem
      · exact .inr

end Sys2Proof.Machine
end

