-- ==== Sys2Proof/Laws/State.lean ====
section
/-! SUPPORT. Laws/State.lean: each field of the state after each update, so that no proof unfolds a
record update. -/

namespace Sys2Proof.Machine

/-! ## Fault entry -/

@[simp] theorem State.raise_cfg (s : State) (r : FaultRecord) : (s.raise r).cfg = s.cfg := rfl
@[simp] theorem State.raise_stream (s : State) (r : FaultRecord) : (s.raise r).stream = s.stream := rfl
@[simp] theorem State.raise_memSize (s : State) (r : FaultRecord) : (s.raise r).memSize = s.memSize := rfl
@[simp] theorem State.raise_mem (s : State) (r : FaultRecord) : (s.raise r).mem = s.mem := rfl
@[simp] theorem State.raise_ip (s : State) (r : FaultRecord) : (s.raise r).ip = s.ip := rfl
@[simp] theorem State.raise_status (s : State) (r : FaultRecord) : (s.raise r).status = .fault := rfl
@[simp] theorem State.raise_fault (s : State) (r : FaultRecord) : (s.raise r).fault = some r := rfl
@[simp] theorem State.raise_len (s : State) (r : FaultRecord) : (s.raise r).len = s.len := rfl
@[simp] theorem State.raise_count (s : State) (r : FaultRecord) : (s.raise r).count = s.count := rfl

/-! ## Commit -/

@[simp] theorem State.commit_cfg (s : State) (b r : Nat) : (s.commit b r).cfg = s.cfg := rfl
@[simp] theorem State.commit_stream (s : State) (b r : Nat) : (s.commit b r).stream = s.stream := rfl
@[simp] theorem State.commit_memSize (s : State) (b r : Nat) : (s.commit b r).memSize = s.memSize := rfl
@[simp] theorem State.commit_mem (s : State) (b r : Nat) : (s.commit b r).mem = s.mem.write b r := rfl
@[simp] theorem State.commit_ip (s : State) (b r : Nat) : (s.commit b r).ip = s.ip + 1 := rfl
@[simp] theorem State.commit_fault (s : State) (b r : Nat) : (s.commit b r).fault = s.fault := rfl
@[simp] theorem State.commit_len (s : State) (b r : Nat) : (s.commit b r).len = s.len := rfl
@[simp] theorem State.commit_count (s : State) (b r : Nat) : (s.commit b r).count = s.count := rfl

theorem State.commit_status (s : State) (b r : Nat) :
    (s.commit b r).status = if s.ip + 1 = s.count then .done else s.status := rfl

/-! ## Reset -/

@[simp] theorem State.resetWith_cfg (c : Config) : (State.resetWith c).cfg = c := rfl
@[simp] theorem State.resetWith_stream (c : Config) : (State.resetWith c).stream = [] := rfl
@[simp] theorem State.resetWith_memSize (c : Config) : (State.resetWith c).memSize = 0 := rfl
@[simp] theorem State.resetWith_mem (c : Config) : (State.resetWith c).mem = [] := rfl
@[simp] theorem State.resetWith_ip (c : Config) : (State.resetWith c).ip = 0 := rfl
@[simp] theorem State.resetWith_status (c : Config) : (State.resetWith c).status = .idle := rfl
@[simp] theorem State.resetWith_fault (c : Config) : (State.resetWith c).fault = none := rfl

/-! ## Start -/

@[simp] theorem State.begin_cfg (s : State) (st : List Byte) (n : Nat) :
    (s.begin st n).cfg = s.cfg := by
  unfold State.begin; dsimp only; split_ifs <;> rfl

@[simp] theorem State.begin_stream (s : State) (st : List Byte) (n : Nat) :
    (s.begin st n).stream = st := by
  unfold State.begin; dsimp only; split_ifs <;> rfl

@[simp] theorem State.begin_memSize (s : State) (st : List Byte) (n : Nat) :
    (s.begin st n).memSize = n := by
  unfold State.begin; dsimp only; split_ifs <;> rfl

@[simp] theorem State.begin_mem (s : State) (st : List Byte) (n : Nat) :
    (s.begin st n).mem = [] := by
  unfold State.begin; dsimp only; split_ifs <;> rfl

@[simp] theorem State.begin_ip (s : State) (st : List Byte) (n : Nat) :
    (s.begin st n).ip = 0 := by
  unfold State.begin; dsimp only; split_ifs <;> rfl

theorem State.begin_status (s : State) (st : List Byte) (n : Nat) :
    (s.begin st n).status =
      if st.length % 7 ≠ 0 then .fault else if st.length = 0 then .done else .run := by
  unfold State.begin; dsimp only; split_ifs <;> rfl

theorem State.begin_fault (s : State) (st : List Byte) (n : Nat) :
    (s.begin st n).fault =
      if st.length % 7 ≠ 0 then some (FaultRecord.malformedStream st.length) else none := by
  unfold State.begin; dsimp only; split_ifs <;> rfl

/-! ## The placing of a word to fetch -/

@[simp] theorem State.withFetchWord_mem (s : State) (n w : Nat) :
    (s.withFetchWord n w).mem = s.mem := rfl
@[simp] theorem State.withFetchWord_memSize (s : State) (n w : Nat) :
    (s.withFetchWord n w).memSize = s.memSize := rfl
@[simp] theorem State.withFetchWord_ip (s : State) (n w : Nat) :
    (s.withFetchWord n w).ip = s.ip := rfl
@[simp] theorem State.withFetchWord_status (s : State) (n w : Nat) :
    (s.withFetchWord n w).status = .run := rfl

end Sys2Proof.Machine
end

