-- ==== Sys2Proof/Laws/Exec.lean ====
section
/-! SUPPORT. Laws/Exec.lean: said once, everything the shared operations of a step can do: the bounds
check, the end of a step, an instruction, and a step. -/

namespace Sys2Proof.Machine

/-! ## The bounds check (40_execution.md R105) -/

/-- No index field is out of bounds exactly when each is below `mem_size`. -/
theorem firstOutOfBounds_eq_none {idx : List IndexField} {n : Nat} :
    firstOutOfBounds idx n = none ↔ ∀ f ∈ idx, f.2 < n := by
  simp [firstOutOfBounds]

/-- What `firstOutOfBounds` finds is an index field at or beyond `mem_size`. -/
theorem firstOutOfBounds_some {idx : List IndexField} {n : Nat} {f : IndexField}
    (h : firstOutOfBounds idx n = some f) : f ∈ idx ∧ n ≤ f.2 := by
  refine ⟨List.mem_of_find?_eq_some h, ?_⟩
  simpa using List.find?_some h

/-- Everything the bounds check can do. -/
theorem checkIndices_cases (idx : List IndexField) (s : State) (ok : Result) :
    (∃ f ∈ idx, s.memSize ≤ f.2 ∧
      checkIndices idx s ok = .next (s.raise (.outOfBounds f.1 f.2 s.ip))) ∨
    ((∀ f ∈ idx, f.2 < s.memSize) ∧ checkIndices idx s ok = ok) := by
  unfold checkIndices
  split
  · rename_i f h
    exact .inl ⟨f, (firstOutOfBounds_some h).1, (firstOutOfBounds_some h).2, rfl⟩
  · rename_i h
    exact .inr ⟨firstOutOfBounds_eq_none.mp h, rfl⟩

/-- With every index field below `mem_size` the check lets the step go on. -/
theorem checkIndices_ok {idx : List IndexField} {s : State} (h : ∀ f ∈ idx, f.2 < s.memSize)
    (ok : Result) : checkIndices idx s ok = ok := by
  rw [checkIndices, firstOutOfBounds_eq_none.mpr h]

theorem firstOutOfBounds_cons (f : IndexField) (idx : List IndexField) (n : Nat) :
    firstOutOfBounds (f :: idx) n = if n ≤ f.2 then some f else firstOutOfBounds idx n := by
  by_cases h : n ≤ f.2 <;> simp [firstOutOfBounds, h]

@[simp] theorem firstOutOfBounds_nil (n : Nat) : firstOutOfBounds [] n = none := rfl

/-! ## The end of a step (40_execution.md R107, R108) -/

theorem finish_fits (op b r : Nat) (s : State) : finish op b true r s = .next (s.commit b r) := rfl

theorem finish_overflow (op b r : Nat) (s : State) :
    finish op b false r s = .next (s.raise (.cellOverflow op b s.ip)) := rfl

/-! ## An instruction -/

/-- Everything an instruction can do: fault on an index field, fault on its result, or commit a
value that fits a cell to the cell that B names. -/
theorem exec_cases (i : Instr) (s : State) :
    (∃ f v, s.memSize ≤ v ∧ exec i s = .next (s.raise (.outOfBounds f v s.ip))) ∨
    (cellIndex i.fieldB < s.memSize ∧
      exec i s = .next (s.raise (.cellOverflow i.mnemonic.code (cellIndex i.fieldB) s.ip))) ∨
    (∃ r, cellIndex i.fieldB < s.memSize ∧ cellHolds s.cfg.cellW r = true ∧
      exec i s = .next (s.commit (cellIndex i.fieldB) r)) := by
  have key : ∀ (idx : List IndexField) (op b : Nat) (fits : Bool) (r : Nat),
      (FieldName.B, b) ∈ idx → (fits = true → cellHolds s.cfg.cellW r = true) →
      (∃ f v, s.memSize ≤ v ∧
        checkIndices idx s (finish op b fits r s) = .next (s.raise (.outOfBounds f v s.ip))) ∨
      (b < s.memSize ∧
        checkIndices idx s (finish op b fits r s) = .next (s.raise (.cellOverflow op b s.ip))) ∨
      (∃ v, b < s.memSize ∧ cellHolds s.cfg.cellW v = true ∧
        checkIndices idx s (finish op b fits r s) = .next (s.commit b v)) := by
    intro idx op b fits r hb hfits
    rcases checkIndices_cases idx s (finish op b fits r s) with ⟨f, _, hv, h⟩ | ⟨hlt, h⟩
    · exact .inl ⟨f.1, f.2, hv, h⟩
    · rw [h]
      cases fits with
      | false => exact .inr (.inl ⟨hlt _ hb, finish_overflow op b r s⟩)
      | true => exact .inr (.inr ⟨r, hlt _ hb, hfits rfl, finish_fits op b r s⟩)
  cases i with
  | loadConst b c d => exact key (indicesB b) _ (cellIndex b) _ _ (by simp [indicesB]) id
  | storeMemory b c d => exact key (indicesBCD b c d) _ (cellIndex b) _ _ (by simp [indicesBCD]) id
  | loadMemory b c d => exact key (indicesBC b c) _ (cellIndex b) _ _ (by simp [indicesBC]) id
  | shiftRight b c d => exact key (indicesBCD b c d) _ (cellIndex b) _ _ (by simp [indicesBCD]) id
  | shiftLeft b c d =>
    refine key (indicesBCD b c d) _ (cellIndex b) _ _ (by simp [indicesBCD]) (fun h => ?_)
    rwa [shiftLeftNat_eq, ← shiftLeftHolds_eq]

/-! ## A step (40_execution.md R111) -/

/-- A step that has a next state started in RUN with a fetched word, and either took a fault of the
front end or executed the instruction of the word. -/
theorem step_cases {s t : State} (h : step s = .next t) :
    s.status = .run ∧ ∃ w, fetchWord s.stream s.ip = some w ∧
      ((∃ r, decodeStage s.cfg s.ip w = .trap r ∧ t = s.raise r) ∨
        (∃ i, decodeStage s.cfg s.ip w = .instr i ∧ exec i s = .next t)) := by
  unfold step at h
  have key : ∀ (f : Fetched), fetchDecode s = f → (∀ r, f ≠ .stuck r) →
      s.status = .run ∧ ∃ w, fetchWord s.stream s.ip = some w ∧ decodeStage s.cfg s.ip w = f := by
    intro f hf hn
    unfold fetchDecode at hf
    cases hst : s.status <;> rw [hst] at hf <;> simp only at hf
    · exact absurd hf.symm (hn _)
    · cases hw : fetchWord s.stream s.ip with
      | none => rw [hw] at hf; exact absurd hf.symm (hn _)
      | some w => rw [hw] at hf; exact ⟨rfl, w, rfl, hf⟩
    · exact absurd hf.symm (hn _)
    · exact absurd hf.symm (hn _)
  cases hf : fetchDecode s with
  | instr i =>
    rw [hf] at h
    obtain ⟨h1, w, h2, h3⟩ := key _ hf (by simp)
    exact ⟨h1, w, h2, .inr ⟨i, h3, h⟩⟩
  | trap r =>
    rw [hf] at h
    obtain ⟨h1, w, h2, h3⟩ := key _ hf (by simp)
    exact ⟨h1, w, h2, .inl ⟨r, h3, (Host.Outcome.next.inj h).symm⟩⟩
  | stuck r => rw [hf] at h; cases h

/-- In RUN, with a word fetched, a step is what the decode stage says. -/
theorem step_of_fetch {s : State} {w : InstrWord} (hs : s.status = .run)
    (hw : fetchWord s.stream s.ip = some w) :
    step s = match decodeStage s.cfg s.ip w with
      | .instr i => exec i s
      | .trap r => .next (s.raise r)
      | .stuck r => .fault r := by
  have h : fetchDecode s = decodeStage s.cfg s.ip w := by simp [fetchDecode, hs, hw]
  rw [step, h] <;> cases decodeStage s.cfg s.ip w <;> rfl

/-- What the decode stage can answer: the fault of a reserved bit, the fault of an undefined opcode,
or the instruction of the word. -/
theorem decodeStage_cases (cfg : Config) (k : Nat) (w : InstrWord) :
    decodeStage cfg k w = .trap (.reservedBits (rsvdBits cfg.opw w).toNat k) ∨
    decodeStage cfg k w = .trap (.unknownOpcode (decodeFields cfg.opw w).op k) ∨
    (∃ i, decodeWord cfg.opw w = .ok i ∧ decodeStage cfg k w = .instr i) := by
  unfold decodeStage
  split_ifs
  · exact .inl rfl
  · cases h : decodeWord cfg.opw w with
    | ok i => exact .inr (.inr ⟨i, rfl, rfl⟩)
    | error e => exact .inr (.inl rfl)

/-! ## Many steps (40_execution.md R112) -/

/-- Where no run is in progress no step is made. -/
theorem runSteps_of_not_run {s : State} (h : s.status ≠ .run) (n : Nat) : runSteps n s = s := by
  cases n with
  | zero => rfl
  | succ n => rw [runSteps, if_neg h]

/-- What every step keeps, every number of steps keeps. -/
theorem runSteps_induct {P : State → Prop} (hstep : ∀ s t, P s → step s = .next t → P t) (n : Nat)
    {s : State} (hs : P s) : P (runSteps n s) := by
  induction n generalizing s with
  | zero => exact hs
  | succ n ih =>
    rw [runSteps]
    split
    · split
      · rename_i h; exact ih (hstep _ _ hs h)
      · exact hs
      · exact hs
    · exact hs

end Sys2Proof.Machine
end

