-- ==== Sys2Proof/Laws/Fetch.lean ====
section
/-! SUPPORT. Laws/Fetch.lean: the step runs the word that `withFetchWord` places. -/

namespace Sys2Proof.Machine

/-- With no reserved-bit check, or no reserved bit set, the word of a table row is fetched and run as
the instruction the decoder reads from it. -/
theorem step_withFetchWord {s : State} {n w : Nat} {i : Instr} (h : decodeTableWord n w = some i)
    (hr : s.cfg.rsvdCheck = false) :
    step (s.withFetchWord n w) = exec i (s.withFetchWord n w) := by
  have hf : fetchWord (s.withFetchWord n w).stream (s.withFetchWord n w).ip =
      some (tableWord n w) := fetchWord_placeWord _ _ _
  have hd : decodeStage (s.withFetchWord n w).cfg (s.withFetchWord n w).ip (tableWord n w) =
      .instr i := by
    have hc : (s.withFetchWord n w).cfg.rsvdCheck = false := hr
    have hw : decodeWord (s.withFetchWord n w).cfg.opw (tableWord n w) = .ok i :=
      decodeWord_tableOpWidth h s.cfg.opw
    rw [decodeStage, hc, hw]
    rfl
  rw [step_of_fetch rfl hf, hd]

end Sys2Proof.Machine
end

