-- ==== Sys2Proof/Laws/HostPorts.lean ====
section
/-! SUPPORT. Laws/HostPorts.lean: everything the Start and dump ports can answer
(spec/40_execution.md R100, R119), and the record of a dump's error (60_exceptions.md R162). -/

namespace Sys2Proof.Machine

/-- A Start that has a next state met its preconditions, and that state is its effect. -/
theorem start_next {caps : Caps} {stream : List Byte} {n : Nat} {s t : State}
    (h : start caps stream n s = .next t) :
    s.status ≠ .run ∧ stream.length ≤ caps.streamCap ∧ n ≤ caps.memCap ∧ t = s.begin stream n := by
  unfold start at h
  split_ifs at h with h1 h2 h3
  exact ⟨h1, by omega, by omega, (Host.Outcome.next.inj h).symm⟩

@[simp] theorem RangeError.record_kind (e : RangeError) : e.record.kind = .rangeError := rfl
@[simp] theorem RangeError.record_code (e : RangeError) : e.record.code = 6 := rfl
@[simp] theorem RangeError.record_k (e : RangeError) : e.record.k = none := rfl
@[simp] theorem RangeError.record_field (e : RangeError) : e.record.field = none := rfl
@[simp] theorem RangeError.record_value (e : RangeError) : e.record.value = some e.first := rfl
@[simp] theorem RangeError.record_aux (e : RangeError) : e.record.aux = some e.stop := rfl

@[simp] theorem dumpRange_length (m : Memory) (a n : Nat) : (dumpRange m a n).length = n := by
  induction n generalizing a with
  | zero => rfl
  | succ n ih => rw [dumpRange, List.length_cons, ih]

/-- Record `j` of a range is cell `a + j`. -/
theorem dumpRange_getElem? (m : Memory) {n j : Nat} (a : Nat) (h : j < n) :
    (dumpRange m a n)[j]? = some (a + j, m.read (a + j)) := by
  induction n generalizing a j with
  | zero => omega
  | succ n ih =>
    cases j with
    | zero => rfl
    | succ j =>
      rw [dumpRange, List.getElem?_cons_succ, ih (a + 1) (by omega),
        show a + 1 + j = a + (j + 1) by omega]

/-- Everything a dump can answer. -/
theorem dumpCells_cases (s : State) (first stop : Int) :
    ((0 ≤ first ∧ first ≤ stop ∧ stop ≤ (s.memSize : Int)) ∧ dumpCells s first stop =
      .ok (dumpRange s.mem first.toNat (stop.toNat - first.toNat))) ∨
    (¬(0 ≤ first ∧ first ≤ stop ∧ stop ≤ (s.memSize : Int)) ∧ dumpCells s first stop =
      .error { first := first, stop := stop, memSize := s.memSize }) := by
  unfold dumpCells
  split
  · exact .inl ⟨‹_›, rfl⟩
  · exact .inr ⟨‹_›, rfl⟩

end Sys2Proof.Machine
end

