-- ==== Sys2Proof/Laws/PerInstr.lean ====
section
/-! SUPPORT. Laws/PerInstr.lean: statements made once per instruction, about the instruction as syntax. -/

namespace Sys2Proof.Laws

/-- An instruction is its mnemonic and its three fields, and its code names its mnemonic
(spec/30_encoding.md R71, R75). -/
def Parts.Statement (i : Instr) : Prop :=
  Instr.ofParts i.mnemonic i.fieldB i.fieldC i.fieldD = i ∧
    Mnemonic.ofCode i.mnemonic.code = some i.mnemonic ∧
    i.mnemonic.code ≤ 16

theorem Parts.loadConst (b : BitVec 11) (c : BitVec 19) (d : BitVec 12) :
    Parts.Statement (.loadConst b c d) := ⟨rfl, Mnemonic.ofCode_code _, by simp [Instr.mnemonic, Mnemonic.code]⟩

theorem Parts.storeMemory (b : BitVec 11) (c : BitVec 19) (d : BitVec 12) :
    Parts.Statement (.storeMemory b c d) := ⟨rfl, Mnemonic.ofCode_code _, by simp [Instr.mnemonic, Mnemonic.code]⟩

theorem Parts.loadMemory (b : BitVec 11) (c : BitVec 19) (d : BitVec 12) :
    Parts.Statement (.loadMemory b c d) := ⟨rfl, Mnemonic.ofCode_code _, by simp [Instr.mnemonic, Mnemonic.code]⟩

theorem Parts.shiftRight (b : BitVec 11) (c : BitVec 19) (d : BitVec 12) :
    Parts.Statement (.shiftRight b c d) := ⟨rfl, Mnemonic.ofCode_code _, by simp [Instr.mnemonic, Mnemonic.code]⟩

theorem Parts.shiftLeft (b : BitVec 11) (c : BitVec 19) (d : BitVec 12) :
    Parts.Statement (.shiftLeft b c d) := ⟨rfl, Mnemonic.ofCode_code _, by simp [Instr.mnemonic, Mnemonic.code]⟩

end Sys2Proof.Laws
end

