-- ==== Sys2Proof/Tests/Slice0.lean ====
section
/-! SUPPORT. Tests/Slice0.lean: small tests. The expected values are those of spec/95_test_vectors.md
(its ids V-… and E… are named) or of the rule cited. The theorems test_witness_… show a state and
operands that meet the hypotheses of the statement they are named for. -/

namespace Sys2Proof.Tests

open Sys2Proof Sys2Proof.Machine Sys2Proof.Claims

/-! ## Helpers -/

/-- A running state at instruction 0 of a stream, with `n` cells. -/
def running (cells : Memory) (n : Nat) (stream : List Byte) : State :=
  { State.reset with mem := cells, memSize := n, stream := stream, status := .run }

/-- The same at another `OPW`. -/
def atWidth (opw : OpWidth) (s : State) : State := { s with cfg := { s.cfg with opw := opw } }

/-- The same with another `CELL_W`. -/
def withCells (cellW : CellWidth) (s : State) : State := { s with cfg := { s.cfg with cellW := cellW } }

/-- The same with `RSVD_CHECK = on`. -/
def checked (s : State) : State := { s with cfg := { s.cfg with rsvdCheck := true } }

/-- The memory after a commit: none when there is no next state or a fault was taken. -/
def memAfter (r : Result) : Option Memory :=
  match r with
  | .next t => if t.status = .fault then none else some t.mem
  | .fault _ => none
  | .refused _ => none

/-- The kind, field and value of the fault taken. -/
def faultAfter (r : Result) : Option (FaultKind × Option FieldName × Option Nat) :=
  match r with
  | .next t => t.fault.map fun f => (f.kind, f.field, f.value)
  | .fault _ => none
  | .refused _ => none

/-- LOAD_CONST 0 10 as bytes (E5). -/
def loadTen : List Byte := [0x04, 0x00, 0x00, 0x00, 0x00, 0xA0, 0x00]

/-! ## Well-formedness: each check refuses an ill-formed instruction -/

theorem test_wf_accepts : (Instr.storeMemory 2047 262143 4095).wellFormed .four = true := by decide
theorem test_wf_refuses_opcode : (Instr.shiftLeft 1 0 1).wellFormed .four = false := by decide
theorem test_wf_accepts_opcode_at_five : (Instr.shiftLeft 1 0 1).wellFormed .five = true := by decide
theorem test_wf_refuses_c : (Instr.loadConst 0 262144 0).wellFormed .five = false := by decide

/-! ## Decoding: words put together field by field from 30_encoding.md R60 and R75:
reserved, opcode, B, reserved, C, D -/

theorem test_decode_loadConst : decodeWord .four
    (0b000#3 ++ 0b0010#4 ++ 5#11 ++ 0#7 ++ 10#19 ++ 3#12) = .ok (.loadConst 5 10 3) := by decide
theorem test_decode_storeMemory : decodeWord .four
    (0b000#3 ++ 0b1010#4 ++ 2#11 ++ 0#7 ++ 0#19 ++ 1#12) = .ok (.storeMemory 2 0 1) := by decide
theorem test_decode_loadMemory : decodeWord .four
    (0b000#3 ++ 0b1110#4 ++ 1#11 ++ 0#7 ++ 300000#19 ++ 7#12) = .ok (.loadMemory 1 300000 7) := by
  decide
theorem test_decode_shiftRight : decodeWord .four
    (0b000#3 ++ 0b1111#4 ++ 2047#11 ++ 0#7 ++ 1#19 ++ 4095#12) = .ok (.shiftRight 2047 1 4095) := by
  decide
theorem test_decode_shiftLeft : decodeWord .five
    (0b00#2 ++ 0b10000#5 ++ 1#11 ++ 0#7 ++ 9#19 ++ 2#12) = .ok (.shiftLeft 1 9 2) := by decide
/-- V-D6: byte order. -/
theorem test_decode_bytes : (be56 [1, 2, 3, 4, 5, 6, 7]).map (decodeFields .four) =
    some { op := 0, b := 1032, c := 16464, d := 1543 } := by decide
/-- V-D8 at both widths. -/
theorem test_decode_reserved : decodeBytes .four [0xE4, 0, 0, 0, 0, 0xA0, 0] = .ok (.loadConst 0 10 0) ∧
    decodeBytes .five [0xE4, 0, 0, 0, 0, 0xA0, 0] = .error (.unknownOpcode 18) := by decide
theorem test_decode_short : decodeBytes .four [4, 0, 0] = .error (.notSevenBytes 3) := by decide

/-! ## Encoding -/

/-- V-E2. -/
theorem test_encode_maxima : encodeFields .four 15 2047 262143 4095 =
    .ok [0x1F, 0xFF, 0xC0, 0x3F, 0xFF, 0xFF, 0xFF] := by decide
/-- V-E9 and V-E8. -/
theorem test_encode_refuses : encodeFields .four 16 2048 262144 4096 = .error ⟨some .opcode, 16⟩ ∧
    encodeFields .four 0 0 0 262143 = .error ⟨some .D, 262143⟩ := by decide
/-- V-E14. -/
theorem test_encode_shiftLeft : encode .five (.shiftLeft 1 0 1) =
    .ok [0x20, 0x00, 0x40, 0x00, 0x00, 0x00, 0x01] := by decide
/-- The rows of the opcode table. -/
theorem test_table_rows : decodeTableWord 56 0x04000000000000 = some (.loadConst 0 0 0) ∧
    decodeTableWord 56 0x14000000000000 = some (.storeMemory 0 0 0) ∧
    decodeTableWord 56 0x1C000000000000 = some (.loadMemory 0 0 0) ∧
    decodeTableWord 56 0x1E000000000000 = some (.shiftRight 0 0 0) ∧
    decodeTableWord 56 0x20000000000000 = some (.shiftLeft 0 0 0) ∧
    decodeTableWord 56 0 = none := by decide
/-- Placing a word after reset is the state that Start leaves with no cell (log entry 10). -/
theorem test_withFetchWord_is_start : State.reset.withFetchWord 56 0x0400000000A000 =
    State.reset.begin loadTen 0 := by decide

/-! ## Steps, at most two an instruction -/

/-- V-LC4: C of 19 bits, D ignored. -/
theorem test_loadConst : memAfter (step (running [] 1 [0x04, 0, 0, 0x7F, 0xFF, 0xFF, 0xFF])) =
    some [(0, 524287)] := by decide
/-- V-LC3. -/
theorem test_loadConst_bounds : faultAfter (step (running [] 1 [0x04, 0, 0x40, 0, 0, 0xA0, 0])) =
    some (.outOfBounds, some .B, some 1) := by decide
/-- V-LM6: D is not checked. -/
theorem test_loadMemory : memAfter (step (running [(1, 8)] 2 [0x1C, 0, 0, 0, 0, 0x1F, 0xFF])) =
    some [(0, 8), (1, 8)] := by decide
/-- V-LM5: B is reported before C. -/
theorem test_loadMemory_bounds :
    faultAfter (step (running [(0, 1), (1, 2)] 2 [0x1C, 0x01, 0x40, 0, 0, 0x90, 0])) =
      some (.outOfBounds, some .B, some 5) := by decide
/-- V-SM2: the destination is both sources. -/
theorem test_storeMemory : memAfter (step (running [(0, 5)] 1 [0x14, 0, 0, 0, 0, 0, 0])) =
    some [(0, 10)] := by decide
/-- V-SM3 and V-SM8. -/
theorem test_storeMemory_overflow :
    faultAfter (step (running [(0, 2 ^ 64 - 1), (1, 1)] 2 [0x14, 0, 0, 0, 0, 0, 1])) =
      some (.cellOverflow, some .B, some 0) ∧
    memAfter (step (withCells .unbounded
      (running [(0, 2 ^ 64 - 1), (1, 1)] 2 [0x14, 0, 0, 0, 0, 0, 1]))) =
      some [(0, 2 ^ 64), (1, 1)] := by decide
/-- V-SR8: the amount is read before B = D is overwritten. -/
theorem test_shiftRight : memAfter (step (running [(0, 256), (1, 4)] 2 [0x1E, 0, 0x40, 0, 0, 0, 1])) =
    some [(0, 256), (1, 16)] := by decide
/-- V-SR4 and V-SR5: the amount is not reduced. -/
theorem test_shiftRight_amount :
    memAfter (step (running [(0, 2 ^ 64 - 1), (1, 64)] 2 [0x1E, 0, 0, 0, 0, 0, 1])) =
      some [(1, 64)] ∧
    memAfter (step (running [(0, 2 ^ 64 - 1), (1, 2 ^ 64 - 1)] 2 [0x1E, 0, 0, 0, 0, 0, 1])) =
      some [(1, 2 ^ 64 - 1)] := by decide
/-- V-SL6 and V-SL7. -/
theorem test_shiftLeft :
    memAfter (step (atWidth .five (running [(0, 2 ^ 32 - 1), (1, 32)] 2 [0x20, 0, 0, 0, 0, 0, 1]))) =
      some [(0, 18446744069414584320), (1, 32)] ∧
    faultAfter (step (atWidth .five (running [(0, 2 ^ 32), (1, 32)] 2 [0x20, 0, 0, 0, 0, 0, 1]))) =
      some (.cellOverflow, some .B, some 0) := by decide
/-- V-SL4, and V-SL0 at `OPW = 4`. -/
theorem test_shiftLeft_zero :
    memAfter (step (atWidth .five (running [(1, 2 ^ 64 - 1)] 3 [0x20, 0, 0x80, 0, 0, 0, 1]))) =
      some [(1, 2 ^ 64 - 1)] ∧
    faultAfter (step (running [(0, 10)] 2 [0x20, 0, 0x40, 0, 0, 0, 1])) =
      some (.unknownOpcode, some .opcode, some 0) := by decide
/-- V-LC7 and V-LC8. -/
theorem test_reserved_bits :
    memAfter (step (running [] 1 [0xE4, 0, 0, 0, 0, 0xA0, 0])) = some [(0, 10)] ∧
    faultAfter (step (checked (running [] 1 [0xE4, 0, 0, 0, 0, 0xA0, 0]))) =
      some (.reservedBits, none, some 0xE0000000000000) := by decide
/-- V-UO5 and V-UO6. -/
theorem test_bit_53 :
    memAfter (step (running [] 1 [0x24, 0, 0, 0, 0, 0xA0, 0])) = some [(0, 10)] ∧
    faultAfter (step (atWidth .five (running [] 1 [0x24, 0, 0, 0, 0, 0xA0, 0]))) =
      some (.unknownOpcode, some .opcode, some 18) := by decide
/-- No step is enabled at reset (R102). -/
theorem test_reset_has_no_step : fetchDecode State.reset = .stuck (.noStepEnabled .idle) := by decide

/-! ## Host ports and the toolchain -/

/-- P5 and P7: a malformed and an empty stream. -/
theorem test_start : (State.reset.begin (loadTen ++ [4, 0, 0x40, 0, 0, 0x10]) 2).fault =
      some (FaultRecord.malformedStream 13) ∧
    (State.reset.begin [] 3).status = .done := by decide
/-- V-DP4, V-DP5 and V-DP6 on five cells. -/
theorem test_dump :
    dumpCells { State.reset with memSize := 5, mem := [(0, 7)] } 0 2 = .ok [(0, 7), (1, 0)] ∧
    dumpCells { State.reset with memSize := 5 } 3 6 = .error ⟨3, 6, 5⟩ ∧
    dumpCells { State.reset with memSize := 5 } 4 3 = .error ⟨4, 3, 5⟩ ∧
    dumpCells { State.reset with memSize := 5 } (-1) 2 = .error ⟨-1, 2, 5⟩ := by decide
/-- V-A2, V-A13: blank lines and leading zeros. -/
theorem test_assemble : assemble .four "\n   \nLOAD_CONST 007 2\n\n".toList =
    .ok ([0x04, 0x01, 0xC0, 0x00, 0x00, 0x20, 0x00], [⟨.loadConst, 2, 7, 2, none⟩]) := by decide
/-- V-A17: tab and CR are whitespace. -/
theorem test_assemble_spaces : assemble .four "  SHIFT_RIGHT\t2047 262143 4095\r".toList =
    .ok ([0x1F, 0xFF, 0xC0, 0x3F, 0xFF, 0xFF, 0xFF], [⟨.shiftRight, 15, 2047, 262143, some 4095⟩]) := by
  decide
/-- V-A11, V-A5, V-A15, V-A10: the first failing line, and the order of the checks on a line. -/
theorem test_assemble_errors :
    assemble .four "LOAD_CONST 0 1\n\nFOO 1\nLOAD_CONST 1 1".toList =
      .error (.assemblyError 3 (.unknownMnemonic "FOO".toList)) ∧
    assemble .four "LOAD_CONST 0 1 2".toList = .error (.assemblyError 1 (.wrongArity 2 3)) ∧
    assemble .four "LOAD_CONST 2048 abc".toList =
      .error (.assemblyError 1 (.nonInteger 2 "abc".toList)) ∧
    assemble .four "SHIFT_LEFT 1 0 1".toList = .error (.fieldOverflow 1 ⟨some .opcode, 16⟩) := by
  decide
/-- R97: the printed form. -/
theorem test_print : printWord .four 0x140080000FF001#56 = .ok "STORE_MEMORY 2 255 1".toList := by
  decide

/-! ## Witnesses: the hypotheses of each statement are met together, each clause at a boundary -/

/-- A running state of two cells holding 5 and 2, at LOAD_CONST 0 10. -/
def two : State := running [(0, 5), (1, 2)] 2 loadTen

theorem two_inv : two.Inv :=
  ⟨by decide, by decide, by decide,
    (by decide : two.len % 7 = 0 ∧ two.ip < two.count ∧ two.fault = none)⟩

theorem test_witness_EncodeChecksInOrderThenPacks :
    2 ^ OpWidth.four.bits - 1 < 16 ∧ 15 ≤ 2 ^ OpWidth.four.bits - 1 ∧ 2047 < 2048 ∧
      262143 < 262144 ∧ 4095 < 4096 ∧ 31 ≤ 2 ^ OpWidth.five.bits - 1 := by decide

theorem test_witness_CodecRoundTripLaws :
    (rsvdNz .four 0x1FFFC03FFFFFFF#56 = false ∧ cOver 0x1FFFC03FFFFFFF#56 = false) ∧
      (rsvdNz .four 0x20000000000000#56 = true ∧ cOver 0x20000000000000#56 = false) ∧
      (rsvdNz .four 0x00000040000000#56 = false ∧ cOver 0x00000040000000#56 = true) := by decide

theorem test_witness_EncodedWordsKeepReservedBitsZero :
    encodeFields .four 2 0 10 0 = .ok loadTen := by decide

theorem test_witness_DecodeIgnoresReservedBits : ∀ i : Fin 56,
    ¬((31 ≤ i.val ∧ i.val ≤ 37) ∨ 49 + OpWidth.four.bits ≤ i.val) →
      (0xE000000000A000#56).getLsbD i = (0x0000000000A000#56).getLsbD i := by decide

theorem test_witness_DecodeInvertsEncode :
    (Instr.shiftRight 2047 262143 4095).wellFormed .four = true ∧
      (Instr.shiftLeft 0 0 0).wellFormed .five = true := by decide

theorem test_witness_DecodeReadsHandMadeWords :
    (Instr.loadMemory 0 524287 4095).opcodeFits .four = true := by decide

theorem test_witness_EncodeRefusesIllFormed :
    (Instr.loadMemory 0 262144 0).wellFormed .four = false ∧
      (Instr.shiftLeft 0 0 0).wellFormed .four = false := by decide

theorem test_witness_ShiftLeftUnreachableAtWidthFour :
    (running [] 1 [0x20, 0, 0, 0, 0, 0, 0]).status = .run ∧
      (running [] 1 [0x20, 0, 0, 0, 0, 0, 0]).cfg.opw = .four ∧
      (running [] 1 [0x20, 0, 0, 0, 0, 0, 0]).cfg.rsvdCheck = false ∧
      fetchWord (running [] 1 [0x20, 0, 0, 0, 0, 0, 0]).stream 0 = some 0x20000000000000#56 ∧
      (0x20000000000000#56).extractLsb' 49 4 = 0#4 := by decide

theorem test_witness_FetchAssemblesBigEndianBytes :
    7 * 0 + 7 ≤ loadTen.length ∧ (loadTen.drop 1).length < 7 * 0 + 7 := by decide

theorem test_witness_StepRunsTheDecodedInstruction :
    two.status = .run ∧ be56 ((two.stream.drop (7 * two.ip)).take 7) = some 0x0400000000A000#56 ∧
      two.cfg.rsvdCheck = false ∧
      decodeBytes two.cfg.opw ((two.stream.drop (7 * two.ip)).take 7) = .ok (.loadConst 0 10 0) := by
  decide

theorem test_witness_StepIsTheSpecsPseudocode :
    two.status = .run ∧ fetchWord two.stream two.ip = some 0x0400000000A000#56 ∧
      memAfter (step two) = some [(0, 10), (1, 2)] := by decide

theorem test_witness_StepEnabledExactlyInRun : two.Inv ∧ State.reset.Inv ∧ State.reset.status ≠ .run :=
  ⟨two_inv, ⟨by decide, by decide, by decide, ⟨rfl, rfl, rfl, rfl, rfl⟩⟩, by decide⟩

theorem test_witness_UndefinedOpcodeStopsTheRun :
    (running [] 1 [0, 0, 0, 0, 0, 0, 0]).status = .run ∧
      fetchWord (running [] 1 [0, 0, 0, 0, 0, 0, 0]).stream 0 = some 0#56 ∧
      (running [] 1 [0, 0, 0, 0, 0, 0, 0]).cfg.rsvdCheck = false ∧
      (decodeFields .four 0#56).op ∉ definedOpcodes .four := by decide

theorem test_witness_ReservedBitsStopTheRunWhenChecked :
    (checked (running [] 1 [0xE4, 0, 0, 0, 0, 0xA0, 0])).cfg.rsvdCheck = true ∧
      fetchWord (running [] 1 [0xE4, 0, 0, 0, 0, 0xA0, 0]).stream 0 = some 0xE400000000A000#56 ∧
      rsvdNz .four 0xE400000000A000#56 = true ∧
      fetchWord loadTen 0 = some (0xE400000000A000#56 &&& ~~~ rsvdMask .four) ∧
      memAfter (step (running [] 1 [0xE4, 0, 0, 0, 0, 0xA0, 0])) = some [(0, 10)] := by decide

theorem test_witness_StepReadsOnlyItsOwnWord :
    (loadTen ++ loadTen).length = (loadTen ++ [0, 0, 0, 0, 0, 0, 0]).length ∧
      ((loadTen ++ loadTen).drop (7 * 0)).take 7 =
        ((loadTen ++ [0, 0, 0, 0, 0, 0, 0]).drop (7 * 0)).take 7 ∧
      memAfter (step (running [] 1 (loadTen ++ [0, 0, 0, 0, 0, 0, 0]))) = some [(0, 10)] := by decide

theorem test_witness_LoadConstResult :
    two.cfg.cellW.wf = true ∧ (1#11).toNat < two.memSize ∧ two.memSize ≤ (2#11).toNat := by decide

theorem test_witness_LoadMemoryResult :
    two.cellsFit ∧ (1#11).toNat < two.memSize ∧ (1#19).toNat < two.memSize ∧
      two.memSize ≤ (2#11).toNat ∧ two.memSize ≤ (2#19).toNat := by decide

theorem test_witness_StoreMemoryResult :
    ((1#11).toNat < two.memSize ∧ (1#19).toNat < two.memSize ∧ (1#12).toNat < two.memSize ∧
      two.cfg.cellW = .finite 64 ∧ two.mem.read 1 + two.mem.read 1 < 2 ^ 64) ∧
    two.memSize ≤ (2#11).toNat ∧ two.memSize ≤ (2#19).toNat ∧ two.memSize ≤ (2#12).toNat ∧
    (running [(0, 2 ^ 64 - 2), (1, 1)] 2 loadTen).mem.read 0 +
      (running [(0, 2 ^ 64 - 2), (1, 1)] 2 loadTen).mem.read 1 = 2 ^ 64 - 1 ∧
    2 ^ 64 ≤ (running [(0, 2 ^ 64 - 1), (1, 1)] 2 loadTen).mem.read 0 +
      (running [(0, 2 ^ 64 - 1), (1, 1)] 2 loadTen).mem.read 1 := by decide

theorem test_witness_ShiftRightResult :
    two.cellsFit ∧ (1#11).toNat < two.memSize ∧ (1#19).toNat < two.memSize ∧
      (1#12).toNat < two.memSize ∧ two.memSize ≤ (2#11).toNat ∧ two.memSize ≤ (2#19).toNat ∧
      two.memSize ≤ (2#12).toNat := by decide

theorem test_witness_ShiftLeftResult :
    ((1#11).toNat < two.memSize ∧ (1#19).toNat < two.memSize ∧ (1#12).toNat < two.memSize ∧
      two.cfg.cellW = .finite 64 ∧ two.mem.read 1 * 2 ^ two.mem.read 1 < 2 ^ 64) ∧
    two.memSize ≤ (2#11).toNat ∧ two.memSize ≤ (2#19).toNat ∧ two.memSize ≤ (2#12).toNat ∧
    (running [(0, 2 ^ 64 - 1)] 2 loadTen).mem.read 0 *
      2 ^ (running [(0, 2 ^ 64 - 1)] 2 loadTen).mem.read 1 = 2 ^ 64 - 1 ∧
    2 ^ 64 ≤ (running [(0, 1), (1, 64)] 2 loadTen).mem.read 0 *
      2 ^ (running [(0, 1), (1, 64)] 2 loadTen).mem.read 1 := by decide

theorem test_witness_OverflowOnlyFromAddAndShiftLeft :
    two.cfg.cellW = .finite 64 ∧ 19 ≤ 64 ∧ two.cellsFit := by decide

theorem test_witness_StoreMemoryOfOneCellDoublesIt :
    0 < two.memSize ∧ two.cfg.cellW = .finite 64 ∧ 2 * two.mem.read 0 < 2 ^ 64 := by decide

theorem test_witness_ShiftRightByItselfGivesZero :
    (1#19).toNat = (1#12).toNat ∧ two.cellsFit ∧ (0#11).toNat < two.memSize ∧
      (1#19).toNat < two.memSize ∧ two.mem.read (1#19).toNat ≠ 0 := by decide

theorem test_witness_ExecFrame :
    memAfter (exec (.storeMemory 1 0 1) two) = some [(0, 5), (1, 7)] ∧
      faultAfter (exec (.shiftLeft 1 2 1) two) = some (.outOfBounds, some .C, some 2) := by decide

theorem test_witness_StepIsAllOrNothing :
    memAfter (step two) = some [(0, 10), (1, 2)] ∧
      faultAfter (step { two with memSize := 0 }) = some (.outOfBounds, some .B, some 0) := by decide

theorem test_witness_UnnameableCellsStayZero :
    2048 ≤ 2048 ∧ (State.reset.begin loadTen 2049).status = .run := by decide

theorem test_witness_StepKeepsInv : two.Inv ∧ memAfter (step two) = some [(0, 10), (1, 2)] :=
  ⟨two_inv, by decide⟩

theorem test_witness_ResetMeetsInv : (CellWidth.finite 19).wf = true ∧ CellWidth.unbounded.wf = true := by
  decide

theorem test_witness_EveryTransitionKeepsInv :
    two.Inv ∧ two.WithinCaps ⟨2, 7⟩ ∧ memAfter (transition ⟨2, 7⟩ .step two) = some [(0, 10), (1, 2)] ∧
      memAfter (transition ⟨2, 7⟩ .reset two) = some [] ∧
      memAfter (transition ⟨2, 7⟩ (.start loadTen 2) State.reset) = some [] :=
  ⟨two_inv, ⟨by decide, by decide⟩, by decide, by decide, by decide⟩

theorem test_witness_IpAdvancesByOne : two.Inv ∧ memAfter (step two) = some [(0, 10), (1, 2)] :=
  ⟨two_inv, by decide⟩

theorem test_witness_RunIsStartThenSteps :
    start ⟨2, 7⟩ loadTen 2 State.reset = .next (State.reset.begin loadTen 2) := by
  rw [start, if_neg (by decide), if_neg (by decide), if_neg (by decide)]

theorem test_witness_RunEndsWithinStreamLength : loadTen.length / 7 ≤ 1 := by decide

theorem test_witness_FaultHidesLaterInstructions :
    (loadTen ++ loadTen).length = (loadTen ++ [0, 0, 0, 0, 0, 0, 0]).length ∧
      (loadTen ++ loadTen).take (7 * (0 + 1)) = (loadTen ++ [0, 0, 0, 0, 0, 0, 0]).take (7 * (0 + 1)) ∧
      (run State.reset (loadTen ++ loadTen) 0).status = .fault ∧
      (run State.reset (loadTen ++ loadTen) 0).ip = 0 := by decide

theorem test_witness_StoppedRunLeftOnlyByStartOrReset :
    ({ two with status := .fault } : State).status = .fault ∧
      memAfter (transition ⟨2, 7⟩ .reset { two with status := .done }) = some [] ∧
      hostReset { two with status := .done } ≠ { two with status := .done } := by decide

theorem test_witness_RunForgetsEarlierState : State.reset.cfg = two.cfg ∧ State.reset ≠ two := by decide

theorem test_witness_MalformedStreamRunsNothing : (loadTen ++ [0]).length % 7 ≠ 0 := by decide

theorem test_witness_StartEffect :
    State.reset.status ≠ .run ∧ loadTen.length ≤ (Caps.mk 2 7).streamCap ∧ 2 ≤ (Caps.mk 2 7).memCap ∧
      (loadTen.length % 7 = 0 ∧ loadTen.length ≠ 0) ∧ ([] : List Byte).length = 0 ∧
      (loadTen.drop 1).length % 7 ≠ 0 := by decide

theorem test_witness_DumpPortAnswers :
    State.reset.status ≠ .run ∧
      ((0 : Int) ≤ 0 ∧ (0 : Int) ≤ 0 ∧ (0 : Int) ≤ State.reset.memSize) ∧
      ¬((0 : Int) ≤ 0 ∧ (0 : Int) ≤ 1 ∧ (1 : Int) ≤ State.reset.memSize) := by decide

/-- V-DP6. -/
theorem test_witness_DumpErrorRecordAsTabled :
    dump { State.reset with memSize := 5 } (-1) 2 = .ok (.error ⟨-1, 2, 5⟩) := by decide

theorem test_witness_HostDutiesHaveNoMove :
    two.status = .run ∧ State.reset.status ≠ .run ∧
      (Caps.mk 2 6).streamCap < loadTen.length ∧
      loadTen.length ≤ (Caps.mk 2 7).streamCap ∧ (Caps.mk 2 7).memCap < 3 := by decide

theorem test_witness_AssembledStreamMatchesLog :
    assemble .four "LOAD_CONST 0 10\n\nLOAD_MEMORY 1 0".toList =
        .ok (loadTen ++ [0x1C, 0x00, 0x40, 0x00, 0x00, 0x00, 0x00],
          [⟨.loadConst, 2, 0, 10, none⟩, ⟨.loadMemory, 14, 1, 0, none⟩]) ∧
      (∀ l ∈ splitLines " \n".toList, tokens l = []) := by decide

theorem test_witness_ShiftLeftLinesFailAtWidthFour :
    parseTokens (tokens "SHIFT_LEFT 9999 0 1".toList) =
      .ok { mnemonic := .shiftLeft, operands := [9999, 0, 1] } := by decide

theorem test_witness_PrintedWordAssemblesBack :
    canonical .four 0x0400000000A000#56 = true ∧ wordD 0x0400000000A000#56 = 0#12 ∧
      canonical .four 0x14008000000001#56 = true := by decide

theorem test_witness_AssembledStreamsFaultOnlyOnData :
    assemble State.reset.cfg.opw "LOAD_CONST 0 10".toList =
      .ok (loadTen, [⟨.loadConst, 2, 0, 10, none⟩]) := by decide

end Sys2Proof.Tests
end

section
/-! Proofs of the family 00_scope.md: the reserved set and the opcode field of a word (R6). -/

namespace Sys2Proof

/-- The two ranges of `RSVD` at once for both widths: the gap between B and C, and everything above
the opcode field, whose lowest bit is 49 (30_encoding.md R60). -/
theorem rsvdMask_getLsbD (opw : OpWidth) (i : Fin 56) :
    (rsvdMask opw).getLsbD i =
      decide ((31 ≤ i.val ∧ i.val ≤ 37) ∨ 49 + opw.bits ≤ i.val) := by
  cases opw with
  | four => revert i; decide
  | five => revert i; decide

theorem OpWidth.bits_pos (opw : OpWidth) : 0 < opw.bits := by
  cases opw <;> decide

/-- The model takes the opcode by position and width; the spec writes it `w[48+OPW : 49]`. -/
theorem wordOp_eq_extractLsb (opw : OpWidth) (w : InstrWord) :
    wordOp opw w = (w.extractLsb (48 + opw.bits) 49).toNat := by
  have hwidth : 48 + opw.bits - 49 + 1 = opw.bits := by have := opw.bits_pos; omega
  rw [wordOp_eq, BitVec.extractLsb_toNat, hwidth, Nat.shiftRight_eq_div_pow]

/-- Settles O12: the bits above the opcode field start at 53 or 54 by the width, and bit 55 is the
last of a word. -/
theorem reservedSetAndOpcodeField : Obligations.ReservedSetAndOpcodeField := by
  refine ⟨fun i => ?four, fun i => ?five, wordOp_eq_extractLsb⟩
  case four =>
    have htop : 49 + OpWidth.four.bits ≤ i.val ↔ 53 ≤ i.val ∧ i.val ≤ 55 := by
      simp only [OpWidth.bits]; omega
    simp only [rsvdMask_getLsbD, htop]
  case five =>
    have htop : 49 + OpWidth.five.bits ≤ i.val ↔ 54 ≤ i.val ∧ i.val ≤ 55 := by
      simp only [OpWidth.bits]; omega
    simp only [rsvdMask_getLsbD, htop]

end Sys2Proof
end

section
/-! Proofs of the family 10_state.md: the reset values (R30, R190), and the invariant of the state
(R22, R24, R25) at reset, after a step and after every other transition. -/

namespace Sys2Proof.Machine

/-! ## What the status says, one case at a time (R24) -/

theorem State.statusMatches_of_idle {s : State} (h : s.status = .idle) :
    s.statusMatches ↔ s.stream = [] ∧ s.memSize = 0 ∧ s.mem = [] ∧ s.ip = 0 ∧ s.fault = none := by
  simp only [State.statusMatches, h]

theorem State.statusMatches_of_run {s : State} (h : s.status = .run) :
    s.statusMatches ↔ s.len % 7 = 0 ∧ s.ip < s.count ∧ s.fault = none := by
  simp only [State.statusMatches, h]

theorem State.statusMatches_of_done {s : State} (h : s.status = .done) :
    s.statusMatches ↔ s.len % 7 = 0 ∧ s.ip = s.count ∧ s.fault = none := by
  simp only [State.statusMatches, h]

theorem State.statusMatches_of_fault {s : State} {r : FaultRecord} (h : s.status = .fault)
    (hr : s.fault = some r) : s.statusMatches ↔ s.faultMatches r := by
  simp only [State.statusMatches, h, hr]

/-- In RUN the invariant gives what the next step rests on: whole instructions, one of them at `ip`. -/
theorem State.Inv.of_run {s : State} (h : s.Inv) (hs : s.status = .run) :
    s.len % 7 = 0 ∧ s.ip < s.count ∧ s.fault = none :=
  (State.statusMatches_of_run hs).mp h.status

/-! ## The faults of an instruction (60_exceptions.md R162) -/

/-- The record is that of a fault of instruction `k`: one of the four kinds a step can raise, with the
kind's code, and with the instruction's byte offset in `aux`. -/
structure FaultRecord.IsOfInstr (r : FaultRecord) (k : Nat) : Prop where
  code : r.code = r.kind.code
  index : r.k = some k
  offset : r.aux = some (7 * k)
  kind : r.kind = .unknownOpcode ∨ r.kind = .outOfBounds ∨ r.kind = .cellOverflow ∨
    r.kind = .reservedBits

theorem FaultRecord.unknownOpcode_isOfInstr (op k : Nat) :
    (FaultRecord.unknownOpcode op k).IsOfInstr k := ⟨rfl, rfl, rfl, .inl rfl⟩

theorem FaultRecord.outOfBounds_isOfInstr (f : FieldName) (v k : Nat) :
    (FaultRecord.outOfBounds f v k).IsOfInstr k := ⟨rfl, rfl, rfl, .inr (.inl rfl)⟩

theorem FaultRecord.cellOverflow_isOfInstr (op b k : Nat) :
    (FaultRecord.cellOverflow op b k).IsOfInstr k := ⟨rfl, rfl, rfl, .inr (.inr (.inl rfl))⟩

theorem FaultRecord.reservedBits_isOfInstr (bits k : Nat) :
    (FaultRecord.reservedBits bits k).IsOfInstr k := ⟨rfl, rfl, rfl, .inr (.inr (.inr rfl))⟩

/-! ## A step raises a fault of its instruction, or commits (40_execution.md R108, R109) -/

/-- The two outcomes of a step: a fault of instruction `ip`, or the commit of a value that fits to a
cell that exists. -/
def RaisesOrCommits (s t : State) : Prop :=
  (∃ r, r.IsOfInstr s.ip ∧ t = s.raise r) ∨
    (∃ b r, b < s.memSize ∧ cellHolds s.cfg.cellW r = true ∧ t = s.commit b r)

theorem exec_raisesOrCommits {i : Instr} {s t : State} (h : exec i s = .next t) :
    RaisesOrCommits s t := by
  rcases exec_cases i s with ⟨f, v, _, he⟩ | ⟨_, he⟩ | ⟨r, hb, hr, he⟩ <;>
    obtain rfl := Host.Outcome.next.inj (h.symm.trans he)
  · exact .inl ⟨_, FaultRecord.outOfBounds_isOfInstr f v s.ip, rfl⟩
  · exact .inl ⟨_, FaultRecord.cellOverflow_isOfInstr _ _ s.ip, rfl⟩
  · exact .inr ⟨_, r, hb, hr, rfl⟩

/-- What the decode stage traps is a fault of the instruction it decodes. -/
theorem decodeStage_trap_isOfInstr {cfg : Config} {k : Nat} {w : InstrWord} {r : FaultRecord}
    (h : decodeStage cfg k w = .trap r) : r.IsOfInstr k := by
  rcases decodeStage_cases cfg k w with he | he | ⟨i, _, he⟩ <;> rw [he] at h
  · obtain rfl := Fetched.trap.inj h
    exact FaultRecord.reservedBits_isOfInstr _ k
  · obtain rfl := Fetched.trap.inj h
    exact FaultRecord.unknownOpcode_isOfInstr _ k
  · cases h

theorem step_raisesOrCommits {s t : State} (h : step s = .next t) :
    s.status = .run ∧ RaisesOrCommits s t := by
  obtain ⟨hs, w, _, ⟨r, hr, rfl⟩ | ⟨i, _, hi⟩⟩ := step_cases h
  · exact ⟨hs, .inl ⟨r, decodeStage_trap_isOfInstr hr, rfl⟩⟩
  · exact ⟨hs, exec_raisesOrCommits hi⟩

/-! ## The invariant after a step -/

/-- Taking a fault of instruction `ip` keeps the invariant: the record says where it was raised. -/
theorem State.Inv.raise {s : State} {r : FaultRecord} (h : s.Inv) (hs : s.status = .run)
    (hr : r.IsOfInstr s.ip) : (s.raise r).Inv := by
  obtain ⟨hlen, hip, _⟩ := h.of_run hs
  refine ⟨h.cfg, h.mem, h.cells, ?_⟩
  rw [State.statusMatches_of_fault (s.raise_status r) (s.raise_fault r)]
  exact ⟨hr.code, .inr ⟨hlen, hip, hr.index, hr.offset, hr.kind⟩⟩

/-- A listed cell after a commit is the written one or was listed before. -/
theorem State.cellsFit_commit {s : State} {b r : Nat} (h : s.cellsFit) (hb : b < s.memSize)
    (hr : cellHolds s.cfg.cellW r = true) : (s.commit b r).cellsFit := by
  intro p hp
  rcases Memory.mem_write hp with rfl | hp
  · exact ⟨hb, hr⟩
  · exact h p hp

/-- A commit in RUN leaves the status that belongs to the next `ip`: DONE at `K`, RUN below. -/
theorem State.Inv.commit {s : State} {b r : Nat} (h : s.Inv) (hs : s.status = .run)
    (hb : b < s.memSize) (hr : cellHolds s.cfg.cellW r = true) : (s.commit b r).Inv := by
  obtain ⟨hlen, hip, hf⟩ := h.of_run hs
  refine ⟨h.cfg, Memory.write_wf h.mem b r, State.cellsFit_commit h.cells hb hr, ?_⟩
  by_cases hlast : s.ip + 1 = s.count
  · rw [State.statusMatches_of_done (by rw [State.commit_status, if_pos hlast])]
    exact ⟨hlen, hlast, hf⟩
  · rw [State.statusMatches_of_run (by rw [State.commit_status, if_neg hlast, hs])]
    exact ⟨hlen, by simp only [State.commit_ip, State.commit_count]; omega, hf⟩

theorem State.Inv.step {s t : State} (h : s.Inv) (hst : Machine.step s = .next t) : t.Inv := by
  obtain ⟨hs, ⟨r, hr, rfl⟩ | ⟨b, r, hb, hr, rfl⟩⟩ := step_raisesOrCommits hst
  · exact h.raise hs hr
  · exact h.commit hs hb hr

/-! ## The invariant at reset and at the start of a run -/

/-- A memory with no listed cell is canonical and fits any cell width, so only the width and the status
remain to be shown. -/
theorem State.Inv.of_mem_nil {s : State} (hcfg : s.cfg.cellW.wf = true) (hmem : s.mem = [])
    (hst : s.statusMatches) : s.Inv where
  cfg := hcfg
  mem := hmem ▸ Memory.wf_nil
  cells := by simp [State.cellsFit, hmem]
  status := hst

theorem State.resetWith_inv {cfg : Config} (h : cfg.cellW.wf = true) : (State.resetWith cfg).Inv :=
  .of_mem_nil h rfl ((State.statusMatches_of_idle rfl).mpr ⟨rfl, rfl, rfl, rfl, rfl⟩)

@[simp] theorem State.begin_len (s : State) (st : List Byte) (n : Nat) :
    (s.begin st n).len = st.length := by
  rw [State.len, State.begin_stream]

@[simp] theorem State.begin_count (s : State) (st : List Byte) (n : Nat) :
    (s.begin st n).count = st.length / 7 := by
  rw [State.count, State.begin_len]

/-- The three ways a run can start: at once in FAULT, at once DONE, or in RUN at instruction 0
(40_execution.md R100, R101). -/
theorem State.begin_statusMatches (s : State) (st : List Byte) (n : Nat) :
    (s.begin st n).statusMatches := by
  have hstatus := s.begin_status st n
  have hfault := s.begin_fault st n
  by_cases hwhole : st.length % 7 = 0
  · rw [if_neg (by simpa using hwhole)] at hstatus hfault
    by_cases hempty : st.length = 0
    · rw [if_pos hempty] at hstatus
      rw [State.statusMatches_of_done hstatus]
      simp [hempty, hfault]
    · rw [if_neg hempty] at hstatus
      have hcount : 0 < st.length / 7 := by omega
      rw [State.statusMatches_of_run hstatus, State.begin_len, State.begin_ip, State.begin_count]
      exact ⟨hwhole, hcount, hfault⟩
  · rw [if_pos hwhole] at hstatus hfault
    rw [State.statusMatches_of_fault hstatus hfault]
    exact ⟨rfl, .inl ⟨by rwa [State.begin_len], s.begin_ip st n, by rw [State.begin_len]⟩⟩

theorem State.begin_inv {s : State} (h : s.cfg.cellW.wf = true) (st : List Byte) (n : Nat) :
    (s.begin st n).Inv :=
  .of_mem_nil (by rwa [State.begin_cfg]) (s.begin_mem st n) (s.begin_statusMatches st n)

/-! ## All transitions (70_reset_and_hazards.md R196) -/

/-- Everything a transition with a next state can be: a Start whose preconditions hold, a step, a
reset, or a read, which changes nothing. -/
theorem transition_cases {caps : Caps} {e : Event} {s t : State}
    (h : transition caps e s = .next t) :
    (∃ stream n, e = .start stream n ∧ s.status ≠ .run ∧ stream.length ≤ caps.streamCap ∧
      n ≤ caps.memCap ∧ t = s.begin stream n) ∨
    (e = .step ∧ step s = .next t) ∨
    (e = .reset ∧ t = State.resetWith s.cfg) ∨
    t = s := by
  cases e with
  | start stream n => exact .inl ⟨stream, n, rfl, start_next h⟩
  | step => exact .inr (.inl ⟨rfl, h⟩)
  | reset => exact .inr (.inr (.inl ⟨rfl, (Host.Outcome.next.inj h).symm⟩))
  | readStatus => exact .inr (.inr (.inr (Host.Outcome.next.inj h).symm))
  | dump first stop =>
    rw [transition] at h
    split_ifs at h
    exact .inr (.inr (.inr (Host.Outcome.next.inj h).symm))

theorem State.Inv.transition {caps : Caps} {e : Event} {s t : State} (h : s.Inv)
    (ht : Machine.transition caps e s = .next t) : t.Inv := by
  obtain ⟨stream, n, _, _, _, _, rfl⟩ | ⟨_, hst⟩ | ⟨_, rfl⟩ | rfl := transition_cases ht
  · exact State.begin_inv h.cfg stream n
  · exact h.step hst
  · exact State.resetWith_inv h.cfg
  · exact h

/-- A step leaves the stream and the memory size as they are, so it stays within the capacities. -/
theorem State.WithinCaps.step {caps : Caps} {s t : State} (h : s.WithinCaps caps)
    (hst : Machine.step s = .next t) : t.WithinCaps caps := by
  obtain ⟨_, ⟨r, _, rfl⟩ | ⟨b, r, _, _, rfl⟩⟩ := step_raisesOrCommits hst
  · exact ⟨h.stream, h.memory⟩
  · exact ⟨h.stream, h.memory⟩

theorem State.WithinCaps.transition {caps : Caps} {e : Event} {s t : State} (h : s.WithinCaps caps)
    (ht : Machine.transition caps e s = .next t) : t.WithinCaps caps := by
  obtain ⟨stream, n, _, _, hstream, hn, rfl⟩ | ⟨_, hst⟩ | ⟨_, rfl⟩ | rfl := transition_cases ht
  · exact ⟨by rwa [State.begin_len], by rwa [State.begin_memSize]⟩
  · exact h.step hst
  · exact ⟨Nat.zero_le _, Nat.zero_le _⟩
  · exact h

/-! ## The statements -/

/-- Settles O33, by the two outcomes of a step. -/
theorem stepKeepsInv : Obligations.StepKeepsInv :=
  fun _ _ h hst => h.step hst

/-- Settles O35, by the cases of a transition. -/
theorem everyTransitionKeepsInv : Obligations.EveryTransitionKeepsInv :=
  fun _ _ _ _ h hcaps ht => ⟨h.transition ht, hcaps.transition ht⟩

/-- Settles O36: the invariant puts `ip` below `K`, and the commit looks whether the next one is
`K`. -/
theorem ipAdvancesByOne : Obligations.IpAdvancesByOne := by
  intro s t h hst
  obtain ⟨hs, ⟨r, _, rfl⟩ | ⟨b, r, _, _, rfl⟩⟩ := step_raisesOrCommits hst
  · exact .inl ⟨s.raise_status r, s.raise_ip r⟩
  · obtain ⟨_, hip, _⟩ := h.of_run hs
    right
    rw [State.commit_ip, State.commit_status, hs]
    by_cases hlast : s.ip + 1 = s.count
    · simp [hlast]
    · have hbelow : s.ip + 1 < s.count := by omega
      simp [hlast, hbelow, hbelow.le]

/-- Settles O34: the normative cell width, 64, is admitted. -/
theorem resetMeetsInv : Obligations.ResetMeetsInv :=
  ⟨State.resetWith_inv (by decide), fun _ h => State.resetWith_inv h⟩

/-- Settles O43: the reset state is written out in `State.resetWith`. -/
theorem resetValues : Obligations.ResetValues :=
  ⟨fun _ => rfl, rfl⟩

end Sys2Proof.Machine
end

section
/-! Proofs of the family 20_memory.md: the bytes of a fetched word (R42), what no step writes (R41,
R28), the cells no B field names (R50), and STORE_MEMORY on one cell (R53). -/

namespace Sys2Proof

/-! ## The word of seven bytes, byte by byte (20_memory.md R42, R45) -/

/-- The other direction of `be56_bytesOfWord`: taking the joined word apart gives the bytes back. -/
theorem bytesOfWord_of_be56 {bs : List Byte} {w : InstrWord} (h : be56 bs = some w) :
    bytesOfWord w = bs := by
  match bs, be56_length h with
  | [b0, b1, b2, b3, b4, b5, b6], _ =>
    obtain rfl := Option.some.inj h
    simp only [bytesOfWord, List.cons.injEq, and_true]
    refine ⟨?_, ?_, ?_, ?_, ?_, ?_, ?_⟩ <;>
      refine BitVec.eq_of_getLsbD_eq fun i hi => ?_ <;>
      simp only [BitVec.getLsbD_extractLsb', BitVec.getLsbD_append] <;>
      interval_cases i <;> simp

theorem bytesOfWord_getElem? (w : InstrWord) {j : Nat} (hj : j < 7) :
    (bytesOfWord w)[j]? = some (w.extractLsb' (48 - 8 * j) 8) := by
  interval_cases j <;> rfl

end Sys2Proof

namespace Sys2Proof.Machine

/-! ## The fetch (20_memory.md R42) -/

/-- Byte `j` of the window that the fetch of instruction `k` joins is byte `7k + j` of the stream. -/
theorem getElem?_of_fetchWord {stream : List Byte} {k : Nat} {w : InstrWord}
    (h : fetchWord stream k = some w) {j : Nat} (hj : j < 7) :
    stream[7 * k + j]? = some (w.extractLsb' (48 - 8 * j) 8) := by
  have hwindow : (stream.drop (7 * k)).take 7 = bytesOfWord w := (bytesOfWord_of_be56 h).symm
  calc stream[7 * k + j]? = ((stream.drop (7 * k)).take 7)[j]? := by
        rw [List.getElem?_take_of_lt hj, List.getElem?_drop]
    _ = some (w.extractLsb' (48 - 8 * j) 8) := by rw [hwindow, bytesOfWord_getElem? w hj]

/-- There is a fetch exactly where the stream holds all seven bytes of the instruction. -/
theorem fetchWord_isSome_iff (stream : List Byte) (k : Nat) :
    (∃ w, fetchWord stream k = some w) ↔ 7 * k + 7 ≤ stream.length := by
  have hlen : ((stream.drop (7 * k)).take 7).length = 7 ↔ 7 * k + 7 ≤ stream.length := by
    rw [List.length_take, List.length_drop]
    omega
  rw [← hlen]
  exact ⟨fun ⟨_, hw⟩ => be56_length hw, fun h => be56_of_length h⟩

/-- Settles O13. -/
theorem fetchAssemblesBigEndianBytes : Obligations.FetchAssemblesBigEndianBytes := by
  intro stream k
  constructor
  · intro hheld
    obtain ⟨w, hw⟩ := (fetchWord_isSome_iff stream k).mpr hheld
    exact ⟨w, hw, fun _ hj => getElem?_of_fetchWord hw hj⟩
  · intro hshort
    refine Option.eq_none_iff_forall_ne_some.mpr fun w hw => ?_
    have hheld := (fetchWord_isSome_iff stream k).mp ⟨w, hw⟩
    omega

/-! ## What no step writes (20_memory.md R41; 10_state.md R28) -/

/-- The two states hold the same program, memory size and build-time configuration. -/
def SameProgram (s t : State) : Prop :=
  t.stream = s.stream ∧ t.memSize = s.memSize ∧ t.cfg = s.cfg

theorem SameProgram.refl (s : State) : SameProgram s s := ⟨rfl, rfl, rfl⟩

theorem SameProgram.trans {s t u : State} :
    SameProgram s t → SameProgram t u → SameProgram s u := by
  rintro ⟨hstream, hsize, hcfg⟩ ⟨hstream', hsize', hcfg'⟩
  exact ⟨hstream'.trans hstream, hsize'.trans hsize, hcfg'.trans hcfg⟩

/-- Neither a fault nor a commit touches the program. -/
theorem step_sameProgram {s t : State} (h : step s = .next t) : SameProgram s t := by
  obtain ⟨_, ⟨r, _, rfl⟩ | ⟨b, r, _, _, rfl⟩⟩ := step_raisesOrCommits h
  · exact ⟨s.raise_stream r, s.raise_memSize r, s.raise_cfg r⟩
  · exact ⟨s.commit_stream b r, s.commit_memSize b r, s.commit_cfg b r⟩

/-- Settles O31. -/
theorem stepsNeverWriteProgramOrSize : Obligations.StepsNeverWriteProgramOrSize :=
  fun n s => runSteps_induct (P := SameProgram s)
    (fun _ _ hs hstep => hs.trans (step_sameProgram hstep)) n (SameProgram.refl s)

/-! ## The cells that no B field names (20_memory.md R50) -/

/-- A B field has 11 bits (30_encoding.md R60). -/
theorem cellIndex_fieldB_lt (i : Instr) : cellIndex i.fieldB < 2048 := i.fieldB.isLt

/-- An instruction writes no cell but the one its B field names, whether it commits or faults. -/
theorem exec_read_of_ne_fieldB {i : Instr} {s t : State} (h : exec i s = .next t) {a : Nat}
    (ha : a ≠ cellIndex i.fieldB) : t.mem.read a = s.mem.read a := by
  rcases exec_cases i s with ⟨f, v, _, he⟩ | ⟨_, he⟩ | ⟨r, _, _, he⟩ <;>
    obtain rfl := Host.Outcome.next.inj (h.symm.trans he)
  · rw [State.raise_mem]
  · rw [State.raise_mem]
  · rw [State.commit_mem, Memory.read_write_other _ r ha]

theorem step_read_unnameable {s t : State} (h : step s = .next t) {a : Nat} (ha : 2048 ≤ a) :
    t.mem.read a = s.mem.read a := by
  obtain ⟨_, w, _, ⟨r, _, rfl⟩ | ⟨i, _, hi⟩⟩ := step_cases h
  · rw [State.raise_mem]
  · have hB := cellIndex_fieldB_lt i
    exact exec_read_of_ne_fieldB hi (by omega)

theorem runSteps_read_unnameable (n : Nat) (s : State) {a : Nat} (ha : 2048 ≤ a) :
    (runSteps n s).mem.read a = s.mem.read a :=
  runSteps_induct (P := fun t => t.mem.read a = s.mem.read a)
    (fun _ _ hs hstep => (step_read_unnameable hstep ha).trans hs) n rfl

/-- Settles O32: Start clears the memory, and no step reaches past B's range. -/
theorem unnameableCellsStayZero : Obligations.UnnameableCellsStayZero := by
  intro s stream n a m ha
  rw [runSteps_read_unnameable m _ ha, State.begin_mem, Memory.read_nil]

/-! ## STORE_MEMORY completes (42_combine_shift.md R142; 20_memory.md R53) -/

/-- The width check in the words of the statements: a bound only where the width is finite. -/
theorem cellHolds_iff (w : CellWidth) (r : Nat) :
    cellHolds w r = true ↔ ∀ bits, w = .finite bits → r < 2 ^ bits := by
  cases w with
  | finite bits => simp
  | unbounded => simp

/-- With its three indices in bounds and a sum that fits, STORE_MEMORY commits the sum. -/
theorem exec_storeMemory_commit {s : State} {b : BitVec 11} {c : BitVec 19} {d : BitVec 12}
    (hb : cellIndex b < s.memSize) (hc : cellIndex c < s.memSize) (hd : cellIndex d < s.memSize)
    (hfits : cellHolds s.cfg.cellW (readCell s c + readCell s d) = true) :
    exec (.storeMemory b c d) s =
      .next (s.commit (cellIndex b) (readCell s c + readCell s d)) := by
  have hidx : ∀ f ∈ indicesBCD b c d, f.2 < s.memSize := by
    simp [indicesBCD, hb, hc, hd]
  show execStoreMemory b c d s = _
  rw [execStoreMemory, checkIndices_ok hidx, hfits, finish_fits]

/-- Settles O26: both sources are read before cell 0 is written, so it is doubled once. -/
theorem storeMemoryOfOneCellDoublesIt : Obligations.StoreMemoryOfOneCellDoublesIt := by
  intro s hsize hfits
  have hsum : readCell s (0 : BitVec 19) + readCell s (0 : BitVec 12) = 2 * s.mem.read 0 :=
    (Nat.two_mul _).symm
  have hstep := exec_storeMemory_commit (b := 0) (c := 0) (d := 0) hsize hsize hsize
    (by rw [hsum]; exact (cellHolds_iff _ _).mpr hfits)
  exact ⟨_, hstep, (Memory.read_write_same s.mem 0 _).trans hsum⟩

end Sys2Proof.Machine
end

section
/-! Proofs of the family 30_encoding.md: the codec in both directions (R60 to R69), the opcode map and the
narrow opcode field (R75 to R80), the assembler's stream and log (R91 to R93), the printed form (R97), and
runs of assembled streams. -/

namespace Sys2Proof

/-! ## The reserved bits (30_encoding.md R60, R67) -/

theorem OpWidth.bits_le (opw : OpWidth) : opw.bits ≤ 5 := by
  cases opw <;> decide

/-- `rsvd_nz` by bit numbers. -/
theorem rsvdNz_eq_false_iff (opw : OpWidth) (w : InstrWord) :
    rsvdNz opw w = false ↔
      ∀ i, (31 ≤ i ∧ i ≤ 37) ∨ 49 + opw.bits ≤ i → w.getLsbD i = false := by
  have hbit : ∀ i, i < 56 → (rsvdBits opw w).getLsbD i =
      (w.getLsbD i && decide ((31 ≤ i ∧ i ≤ 37) ∨ 49 + opw.bits ≤ i)) := fun i hi => by
    rw [rsvdBits, BitVec.getLsbD_and, rsvdMask_getLsbD opw ⟨i, hi⟩]
  have hzero : rsvdNz opw w = false ↔ rsvdBits opw w = 0#56 := by simp [rsvdNz]
  rw [hzero]
  constructor
  · intro h i hi
    by_cases hlt : i < 56
    · simpa [h, hi] using (hbit i hlt).symm
    · exact BitVec.getLsbD_of_ge w i (by omega)
  · intro h
    refine BitVec.eq_of_getLsbD_eq fun i hi => ?_
    rw [hbit i hi, BitVec.getLsbD_zero]
    by_cases hr : (31 ≤ i ∧ i ≤ 37) ∨ 49 + opw.bits ≤ i
    · rw [h i hr, Bool.false_and]
    · rw [decide_eq_false hr, Bool.and_false]

/-- `rsvd_nz` on the word as a number: the gap between B and C is 0, and nothing lies above the
opcode. -/
theorem rsvdNz_eq_false_iff_toNat (opw : OpWidth) (w : InstrWord) :
    rsvdNz opw w = false ↔ w.toNat / 2 ^ 31 % 2 ^ 7 = 0 ∧ w.toNat < 2 ^ (49 + opw.bits) := by
  rw [rsvdNz_eq_false_iff]
  have hgap : w.toNat / 2 ^ 31 % 2 ^ 7 = (w.extractLsb' 31 7).toNat := by
    simp [Nat.shiftRight_eq_div_pow]
  rw [hgap]
  constructor
  · intro h
    constructor
    · have hext : w.extractLsb' 31 7 = 0#7 := BitVec.eq_of_getLsbD_eq fun i hi => by
        simp [BitVec.getLsbD_extractLsb', h (31 + i) (.inl (by omega))]
      rw [hext]
      rfl
    · exact Nat.lt_pow_two_of_testBit _ fun i hi => h i (.inr hi)
  · rintro ⟨hmid, htop⟩ i (⟨h31, h37⟩ | hi)
    · have hext : w.extractLsb' 31 7 = 0#7 := BitVec.eq_of_toNat_eq hmid
      have hbit := congrArg (fun v => v.getLsbD (i - 31)) hext
      have hlt : i - 31 < 7 := by omega
      simpa [BitVec.getLsbD_extractLsb', hlt, Nat.add_sub_cancel' h31] using hbit
    · exact Nat.testBit_lt_two_pow (htop.trans_le (Nat.pow_le_pow_right (by omega) hi))

/-- `c_over` is false exactly within the encoder's bound of C. -/
theorem cOver_eq_false_iff (w : InstrWord) : cOver w = false ↔ (wordC w).toNat ≤ cMax := by
  simp [cOver]

/-! ## Packing a quadruple (30_encoding.md R60, R63) -/

/-- The word of a quadruple, its fields packed side by side: what `Encode` puts into bytes. -/
def Fields.word (f : Fields) : InstrWord :=
  BitVec.ofNat 56 (packFields f.op f.b.toNat f.c.toNat f.d.toNat)

theorem Fields.word_toNat {f : Fields} (hop : f.op < 2 ^ 7) :
    f.word.toNat =
      f.op * 2 ^ 49 + f.b.toNat * 2 ^ 38 + f.c.toNat * 2 ^ 12 + f.d.toNat := by
  have hb := f.b.isLt
  have hc := f.c.isLt
  have hd := f.d.isLt
  rw [Fields.word, BitVec.toNat_ofNat, packFields_eq hb hc hd, Nat.mod_eq_of_lt (by omega)]

/-- An opcode that fits either field leaves the top two bits of the word free. -/
theorem OpWidth.lt_of_lt_two_pow_bits {opw : OpWidth} {op : Nat} (h : op < 2 ^ opw.bits) :
    op < 2 ^ 5 :=
  h.trans_le (Nat.pow_le_pow_right (by omega) opw.bits_le)

/-- `Decode` reads a packed quadruple back, C at all 19 bits. -/
theorem decodeFields_word {opw : OpWidth} {f : Fields} (hop : f.op < 2 ^ opw.bits) :
    decodeFields opw f.word = f := by
  have hop5 := OpWidth.lt_of_lt_two_pow_bits hop
  have hw := Fields.word_toNat (f := f) (by omega)
  have hb := f.b.isLt
  have hc := f.c.isLt
  have hd := f.d.isLt
  have hop' : wordOp opw f.word = f.op := by
    have hdiv : f.word.toNat / 2 ^ 49 = f.op := by omega
    rw [wordOp_eq, hdiv, Nat.mod_eq_of_lt hop]
  have hb' : wordB f.word = f.b :=
    BitVec.eq_of_toNat_eq (by rw [wordB_toNat]; omega)
  have hc' : wordC f.word = f.c :=
    BitVec.eq_of_toNat_eq (by rw [wordC_toNat]; omega)
  have hd' : wordD f.word = f.d :=
    BitVec.eq_of_toNat_eq (by rw [wordD_toNat]; omega)
  rw [decodeFields, hop', hb', hc', hd']

/-- The decoded opcode always fits the opcode field. -/
theorem decodeFields_op_lt (opw : OpWidth) (w : InstrWord) :
    (decodeFields opw w).op < 2 ^ opw.bits :=
  wordOp_lt opw w

/-- Packing what was decoded gives the word back exactly when it has no reserved bit: those bits are
all that `Decode` drops. -/
theorem word_decodeFields_eq_iff (opw : OpWidth) (w : InstrWord) :
    (decodeFields opw w).word = w ↔ rsvdNz opw w = false := by
  have hop5 := OpWidth.lt_of_lt_two_pow_bits (decodeFields_op_lt opw w)
  have hsum : (decodeFields opw w).word.toNat =
      w.toNat / 2 ^ 49 % 2 ^ opw.bits * 2 ^ 49 + w.toNat / 2 ^ 38 % 2 ^ 11 * 2 ^ 38 +
        w.toNat / 2 ^ 12 % 2 ^ 19 * 2 ^ 12 + w.toNat % 2 ^ 12 := by
    rw [Fields.word_toNat (by omega)]
    simp only [decodeFields, wordOp_eq, wordB_toNat, wordC_toNat, wordD_toNat]
  rw [rsvdNz_eq_false_iff_toNat, ← BitVec.toNat_inj, hsum]
  cases opw with
  | four => simp only [OpWidth.bits]; omega
  | five => simp only [OpWidth.bits]; omega

theorem Fields.rsvdNz_word {opw : OpWidth} {f : Fields} (hop : f.op < 2 ^ opw.bits) :
    rsvdNz opw f.word = false := by
  rw [← word_decodeFields_eq_iff, decodeFields_word hop]

theorem Fields.wordC_word {opw : OpWidth} {f : Fields} (hop : f.op < 2 ^ opw.bits) :
    wordC f.word = f.c :=
  congrArg Fields.c (decodeFields_word hop)

/-! ## What `Encode` answers (30_encoding.md R62, R63) -/

theorem OpWidth.le_opMax_iff {opw : OpWidth} {op : Nat} : op ≤ opw.opMax ↔ op < 2 ^ opw.bits := by
  have hpos : 0 < 2 ^ opw.bits := by positivity
  rw [OpWidth.opMax]
  omega

theorem le_bMax_iff {b : Nat} : b ≤ bMax ↔ b < 2 ^ 11 := by
  rw [bMax]
  omega

theorem le_cMax_iff {c : Nat} : c ≤ cMax ↔ c < 2 ^ 18 := by
  rw [cMax]
  omega

theorem le_dMax_iff {d : Nat} : d ≤ dMax ↔ d < 2 ^ 12 := by
  rw [dMax]
  omega

theorem encodeFields_opcode {opw : OpWidth} {op : Nat} (h : opw.opMax < op) (b c d : Nat) :
    encodeFields opw op b c d = .error ⟨some .opcode, op⟩ := by
  rw [encodeFields, if_pos h]

theorem encodeFields_B {opw : OpWidth} {op b : Nat} (hop : op ≤ opw.opMax) (h : bMax < b)
    (c d : Nat) : encodeFields opw op b c d = .error ⟨some .B, b⟩ := by
  rw [encodeFields, if_neg hop.not_gt, if_pos h]

theorem encodeFields_C {opw : OpWidth} {op b c : Nat} (hop : op ≤ opw.opMax) (hb : b ≤ bMax)
    (h : cMax < c) (d : Nat) : encodeFields opw op b c d = .error ⟨some .C, c⟩ := by
  rw [encodeFields, if_neg hop.not_gt, if_neg hb.not_gt, if_pos h]

theorem encodeFields_D {opw : OpWidth} {op b c d : Nat} (hop : op ≤ opw.opMax) (hb : b ≤ bMax)
    (hc : c ≤ cMax) (h : dMax < d) : encodeFields opw op b c d = .error ⟨some .D, d⟩ := by
  rw [encodeFields, if_neg hop.not_gt, if_neg hb.not_gt, if_neg hc.not_gt, if_pos h]

/-- Fields within their bounds are packed below bit `49 + OPW`. -/
theorem sum_fields_lt {opw : OpWidth} {op b c d : Nat} (hop : op < 2 ^ opw.bits)
    (hb : b < 2 ^ 11) (hc : c < 2 ^ 19) (hd : d < 2 ^ 12) :
    op * 2 ^ 49 + b * 2 ^ 38 + c * 2 ^ 12 + d < 2 ^ (49 + opw.bits) := by
  cases opw with
  | four => simp only [OpWidth.bits] at hop ⊢; omega
  | five => simp only [OpWidth.bits] at hop ⊢; omega

/-- Within the bounds the defensive check does not fire, and the packed word's bytes come out. -/
theorem encodeFields_ok {opw : OpWidth} {op b c d : Nat} (hop : op ≤ opw.opMax) (hb : b ≤ bMax)
    (hc : c ≤ cMax) (hd : d ≤ dMax) :
    encodeFields opw op b c d = .ok (bytesOfWord (BitVec.ofNat 56 (packFields op b c d))) := by
  have hb' := le_bMax_iff.mp hb
  have hc' := le_cMax_iff.mp hc
  have hd' := le_dMax_iff.mp hd
  have hop5 := OpWidth.lt_of_lt_two_pow_bits (OpWidth.le_opMax_iff.mp hop)
  have hfits : packFields op b c d < 2 ^ 56 := by
    rw [packFields_eq hb' (by omega) hd']
    omega
  rw [encodeFields, if_neg hop.not_gt, if_neg hb.not_gt, if_neg hc.not_gt, if_neg hd.not_gt,
    if_neg hfits.not_ge]

/-- The quadruple is within the encoder's bounds. B and D are by their types. -/
structure Fields.Encodable (opw : OpWidth) (f : Fields) : Prop where
  op : f.op < 2 ^ opw.bits
  c : f.c.toNat ≤ cMax

theorem Fields.encode_of_encodable {opw : OpWidth} {f : Fields} (h : f.Encodable opw) :
    encodeFields opw f.op f.b.toNat f.c.toNat f.d.toNat = .ok (bytesOfWord f.word) :=
  encodeFields_ok (OpWidth.le_opMax_iff.mpr h.op) (le_bMax_iff.mpr f.b.isLt) h.c
    (le_dMax_iff.mpr f.d.isLt)

theorem Fields.encode_of_cMax_lt {opw : OpWidth} {f : Fields} (hop : f.op < 2 ^ opw.bits)
    (hc : cMax < f.c.toNat) :
    encodeFields opw f.op f.b.toNat f.c.toNat f.d.toNat = .error ⟨some .C, f.c.toNat⟩ :=
  encodeFields_C (OpWidth.le_opMax_iff.mpr hop) (le_bMax_iff.mpr f.b.isLt) hc _

/-- Naturals within the bounds are the fields of a quadruple. -/
theorem Fields.exists_encodable {opw : OpWidth} {op b c d : Nat} (hop : op ≤ opw.opMax)
    (hb : b ≤ bMax) (hc : c ≤ cMax) (hd : d ≤ dMax) :
    ∃ f : Fields, f.Encodable opw ∧ f.op = op ∧ f.b.toNat = b ∧ f.c.toNat = c ∧ f.d.toNat = d := by
  have hc' : c < 2 ^ 19 := (le_cMax_iff.mp hc).trans (by decide)
  exact ⟨⟨op, BitVec.ofNatLT b (le_bMax_iff.mp hb), BitVec.ofNatLT c hc',
    BitVec.ofNatLT d (le_dMax_iff.mp hd)⟩, ⟨OpWidth.le_opMax_iff.mp hop, hc⟩, rfl, rfl, rfl, rfl⟩

/-- Whatever `Encode` gives bytes for is a quadruple within the bounds, and the bytes are its word's. -/
theorem encodeFields_ok_inv {opw : OpWidth} {op b c d : Nat} {bytes : List Byte}
    (h : encodeFields opw op b c d = .ok bytes) :
    ∃ f : Fields, f.Encodable opw ∧ f.op = op ∧ f.b.toNat = b ∧ f.c.toNat = c ∧ f.d.toNat = d ∧
      bytes = bytesOfWord f.word := by
  have hop : op ≤ opw.opMax := by
    by_contra hn
    rw [encodeFields_opcode (Nat.lt_of_not_le hn)] at h
    cases h
  have hb : b ≤ bMax := by
    by_contra hn
    rw [encodeFields_B hop (Nat.lt_of_not_le hn)] at h
    cases h
  have hc : c ≤ cMax := by
    by_contra hn
    rw [encodeFields_C hop hb (Nat.lt_of_not_le hn)] at h
    cases h
  have hd : d ≤ dMax := by
    by_contra hn
    rw [encodeFields_D hop hb hc (Nat.lt_of_not_le hn)] at h
    cases h
  obtain ⟨f, hf, rfl, rfl, rfl, rfl⟩ := Fields.exists_encodable hop hb hc hd
  rw [Fields.encode_of_encodable hf] at h
  exact ⟨f, hf, rfl, rfl, rfl, rfl, (Except.ok.inj h).symm⟩

/-- What was decoded is within the encoder's bounds unless C exceeds its own. -/
theorem decodeFields_encodable {opw : OpWidth} {w : InstrWord} (h : cOver w = false) :
    (decodeFields opw w).Encodable opw :=
  ⟨decodeFields_op_lt opw w, (cOver_eq_false_iff w).mp h⟩

/-- The word and its bytes say the same. -/
theorem bytesOfWord_inj {w w' : InstrWord} (h : bytesOfWord w = bytesOfWord w') : w = w' := by
  have hbe := congrArg be56 h
  rwa [be56_bytesOfWord, be56_bytesOfWord, Option.some.injEq] at hbe

/-! ## The statements on the codec -/

/-- Settles O2. Law 3's two cases are those of the word: C above its bound is refused, and a reserved bit
is what the encoding lacks. -/
theorem codecRoundTripLaws : Obligations.CodecRoundTripLaws := by
  refine ⟨fun opw op b c d hop hb hc hd => ?law1, fun opw w hr hc => ?law2, fun opw w h => ?law3⟩
  case law1 =>
    obtain ⟨f, hf, rfl, rfl, rfl, rfl⟩ := Fields.exists_encodable (opw := opw) hop hb hc hd
    refine ⟨_, f.word, Fields.encode_of_encodable hf, be56_bytesOfWord _, ?_⟩
    rw [decodeFields_word hf.op]
    exact ⟨rfl, rfl, rfl, rfl⟩
  case law2 =>
    refine ⟨_, Fields.encode_of_encodable (decodeFields_encodable hc), ?_⟩
    rw [be56_bytesOfWord, (word_decodeFields_eq_iff opw w).mpr hr]
  case law3 =>
    cases hc : cOver w with
    | true =>
      exact .inr (Fields.encode_of_cMax_lt (decodeFields_op_lt opw w) (of_decide_eq_true hc))
    | false =>
      have hr : rsvdNz opw w ≠ false := by simpa [hc] using h
      exact .inl ⟨_, _, Fields.encode_of_encodable (decodeFields_encodable hc), be56_bytesOfWord _,
        fun hw => hr ((word_decodeFields_eq_iff opw w).mp hw)⟩

/-- A byte of the word of a natural. -/
theorem extractLsb'_ofNat_byte {n sh : Nat} (hsh : sh + 8 ≤ 56) :
    (BitVec.ofNat 56 n).extractLsb' sh 8 = BitVec.ofNat 8 (n / 2 ^ sh) := by
  refine BitVec.eq_of_getLsbD_eq fun i hi => ?_
  have hlt : sh + i < 56 := by omega
  simp only [BitVec.getLsbD_extractLsb', BitVec.getLsbD_ofNat, Nat.testBit_div_two_pow, hi, hlt,
    Nat.add_comm i sh, decide_true, Bool.true_and]

theorem bytesOfWord_ofNat (n : Nat) :
    bytesOfWord (BitVec.ofNat 56 n) =
      [48, 40, 32, 24, 16, 8, 0].map fun sh => BitVec.ofNat 8 (n / 2 ^ sh) := by
  simp only [bytesOfWord, List.map]
  rw [extractLsb'_ofNat_byte, extractLsb'_ofNat_byte, extractLsb'_ofNat_byte,
    extractLsb'_ofNat_byte, extractLsb'_ofNat_byte, extractLsb'_ofNat_byte,
    extractLsb'_ofNat_byte] <;> decide

/-- Settles O1. -/
theorem encodeChecksInOrderThenPacks : Obligations.EncodeChecksInOrderThenPacks := by
  intro opw op b c d
  refine ⟨fun h => encodeFields_opcode h b c d, fun hop h => encodeFields_B hop h c d,
    fun hop hb h => encodeFields_C hop hb h d, encodeFields_D, fun hop hb hc hd => ?_⟩
  have hb' : b < 2 ^ 11 := by omega
  have hc' : c < 2 ^ 19 := by omega
  have hd' : d < 2 ^ 12 := by omega
  have hpack := packFields_eq (op := op) hb' hc' hd'
  refine ⟨hpack, sum_fields_lt (OpWidth.le_opMax_iff.mp hop) hb' hc' hd', ?_⟩
  rw [encodeFields_ok hop hb hc hd, hpack, bytesOfWord_ofNat]

/-- Settles O3: bit 30 is the top bit of C, which the encoder's bound leaves 0. -/
theorem encodedWordsKeepReservedBitsZero : Obligations.EncodedWordsKeepReservedBitsZero := by
  intro opw op b c d bytes h
  obtain ⟨f, hf, -, -, -, -, rfl⟩ := encodeFields_ok_inv h
  refine ⟨f.word, be56_bytesOfWord _, (rsvdNz_eq_false_iff opw _).mp (Fields.rsvdNz_word hf.op), ?_⟩
  have hc18 : (wordC f.word).toNat < 2 ^ 18 := by
    rw [Fields.wordC_word hf.op]
    exact le_cMax_iff.mp hf.c
  calc f.word.getLsbD 30 = (wordC f.word).getLsbD 18 := by simp [wordC]
    _ = false := Nat.testBit_lt_two_pow hc18

/-- A part of a word depends on its own bits only. -/
theorem extractLsb'_congr {w w' : InstrWord} {start len : Nat}
    (h : ∀ i, start ≤ i → i < start + len → w.getLsbD i = w'.getLsbD i) :
    w.extractLsb' start len = w'.extractLsb' start len := by
  refine BitVec.eq_of_getLsbD_eq fun i hi => ?_
  rw [BitVec.getLsbD_extractLsb', BitVec.getLsbD_extractLsb', h (start + i) (by omega) (by omega)]

/-- Settles O4: no field reaches into the reserved set. -/
theorem decodeIgnoresReservedBits : Obligations.DecodeIgnoresReservedBits := by
  intro opw w w' h
  have hbits := opw.bits_le
  have hop : wordOp opw w = wordOp opw w' :=
    congrArg BitVec.toNat (extractLsb'_congr fun i _ _ => h i (by omega) (by omega))
  have hb : wordB w = wordB w' := extractLsb'_congr fun i _ _ => h i (by omega) (by omega)
  have hc : wordC w = wordC w' := extractLsb'_congr fun i _ _ => h i (by omega) (by omega)
  have hd : wordD w = wordD w' := extractLsb'_congr fun i _ _ => h i (by omega) (by omega)
  exact ⟨by rw [decodeFields, hop, hb, hc, hd, decodeFields], by rw [cOver, hc, cOver]⟩

/-! ## The opcode map and the decoder (30_encoding.md R66, R68, R75, R78) -/

theorem Mnemonic.ofCode_eq_some_iff {code : Nat} {m : Mnemonic} :
    Mnemonic.ofCode code = some m ↔ m.code = code :=
  ⟨Mnemonic.code_of_ofCode, fun h => h ▸ Mnemonic.ofCode_code m⟩

theorem Mnemonic.arity_cases (m : Mnemonic) : m.arity = 2 ∨ m.arity = 3 := by
  cases m <;> decide

theorem Instr.ofParts_self (i : Instr) :
    Instr.ofParts i.mnemonic i.fieldB i.fieldC i.fieldD = i := by
  cases i <;> rfl

/-- The quadruple of an instruction. -/
def Instr.fields (i : Instr) : Fields :=
  { op := i.mnemonic.code, b := i.fieldB, c := i.fieldC, d := i.fieldD }

/-- A word with a defined opcode is the instruction of its fields. -/
theorem decodeWord_of_ofCode {opw : OpWidth} {w : InstrWord} {m : Mnemonic}
    (h : Mnemonic.ofCode (decodeFields opw w).op = some m) :
    decodeWord opw w = .ok (Instr.ofParts m (decodeFields opw w).b (decodeFields opw w).c
      (decodeFields opw w).d) := by
  rw [decodeWord, h]

theorem decodeWord_of_ofCode_none {opw : OpWidth} {w : InstrWord}
    (h : Mnemonic.ofCode (decodeFields opw w).op = none) :
    decodeWord opw w = .error (.unknownOpcode (decodeFields opw w).op) := by
  rw [decodeWord, h]

theorem decodeWord_eq_ok_iff {opw : OpWidth} {w : InstrWord} {i : Instr} :
    decodeWord opw w = .ok i ↔ decodeFields opw w = i.fields := by
  constructor
  · intro h
    cases hm : Mnemonic.ofCode (decodeFields opw w).op with
    | none => rw [decodeWord_of_ofCode_none hm] at h; cases h
    | some m =>
      rw [decodeWord_of_ofCode hm] at h
      obtain rfl := Except.ok.inj h
      simp only [Instr.fields, Instr.ofParts_mnemonic, Instr.ofParts_fieldB, Instr.ofParts_fieldC,
        Instr.ofParts_fieldD, Mnemonic.code_of_ofCode hm]
  · intro h
    have hm : Mnemonic.ofCode (decodeFields opw w).op = some i.mnemonic := by
      rw [h]
      exact Mnemonic.ofCode_code _
    rw [decodeWord_of_ofCode hm, h]
    exact congrArg _ i.ofParts_self

/-- Settles O10. -/
theorem decodeSelectsByCode : Obligations.DecodeSelectsByCode :=
  fun _ _ _ => decodeWord_eq_ok_iff

/-- The canonical words by their three conditions (30_encoding.md R68). -/
theorem canonical_iff {opw : OpWidth} {w : InstrWord} :
    canonical opw w = true ↔
      rsvdNz opw w = false ∧ cOver w = false ∧ ∃ m : Mnemonic, m.code = (decodeFields opw w).op := by
  simp only [canonical, Bool.and_eq_true, Bool.not_eq_true', Option.isSome_iff_exists,
    Mnemonic.ofCode_eq_some_iff, and_assoc, decodeFields]

/-- `Encode` gives a word without reserved bits its own bytes (law 2 of R69). -/
theorem encodeFields_decodeFields {opw : OpWidth} {w : InstrWord} (hr : rsvdNz opw w = false)
    (hc : cOver w = false) :
    encodeFields opw (decodeFields opw w).op (decodeFields opw w).b.toNat
      (decodeFields opw w).c.toNat (decodeFields opw w).d.toNat = .ok (bytesOfWord w) := by
  rw [Fields.encode_of_encodable (decodeFields_encodable hc), (word_decodeFields_eq_iff opw w).mpr hr]

/-- Settles O5. -/
theorem canonicalWordsAreTheEncodersImage : Obligations.CanonicalWordsAreTheEncodersImage := by
  intro opw w
  rw [canonical_iff]
  constructor
  · rintro ⟨hr, hc, m, hm⟩
    exact ⟨m, _, _, _, hm ▸ encodeFields_decodeFields hr hc⟩
  · rintro ⟨m, b, c, d, h⟩
    obtain ⟨f, hf, hop, -, -, -, hbytes⟩ := encodeFields_ok_inv h
    obtain rfl := bytesOfWord_inj hbytes
    refine ⟨Fields.rsvdNz_word hf.op, ?_, m, by rw [decodeFields_word hf.op, hop]⟩
    rw [cOver_eq_false_iff, Fields.wordC_word hf.op]
    exact hf.c

/-! ## Instructions and their words (30_encoding.md R62, R66, R76) -/

/-- `opcodeFits` is the encoder's bound of the opcode. -/
theorem Instr.opcodeFits_iff {opw : OpWidth} {i : Instr} :
    i.opcodeFits opw = true ↔ i.fields.op < 2 ^ opw.bits := by
  have hfits : i.opcodeFits opw = decide (i.fields.op < 2 ^ opw.bits) := by
    cases opw with
    | four => cases i <;> rfl
    | five => cases i <;> rfl
  rw [hfits, decide_eq_true_iff]

/-- The only code that can be too wide is SHIFT_LEFT's. -/
theorem Instr.code_of_not_opcodeFits {opw : OpWidth} {i : Instr} (h : i.opcodeFits opw = false) :
    i.mnemonic.code = 16 := by
  cases i with
  | shiftLeft b c d => rfl
  | _ => cases h

theorem Instr.word_eq (i : Instr) : i.word = i.fields.word := rfl

/-- A hand-made word decodes to its instruction wherever the opcode field holds the code. -/
theorem decodeWord_word {opw : OpWidth} {i : Instr} (h : i.opcodeFits opw = true) :
    decodeWord opw i.word = .ok i := by
  rw [decodeWord_eq_ok_iff, Instr.word_eq, decodeFields_word (Instr.opcodeFits_iff.mp h)]

theorem Instr.wellFormed_iff {opw : OpWidth} {i : Instr} :
    i.wellFormed opw = true ↔ i.fields.Encodable opw := by
  rw [Instr.wellFormed, Bool.and_eq_true, Instr.opcodeFits_iff, Instr.cInBound,
    decide_eq_true_iff]
  exact ⟨fun ⟨hop, hc⟩ => ⟨hop, hc⟩, fun ⟨hop, hc⟩ => ⟨hop, hc⟩⟩

/-- Settles O6. -/
theorem decodeInvertsEncode : Obligations.DecodeInvertsEncode := by
  intro opw i h
  have henc := Instr.wellFormed_iff.mp h
  refine ⟨bytesOfWord i.word, Fields.encode_of_encodable henc, bytesOfWord_length _, ?_⟩
  rw [decodeBytes_of_be56 (be56_bytesOfWord _)]
  exact decodeWord_word (Instr.opcodeFits_iff.mpr henc.op)

/-- Settles O7. -/
theorem decodeReadsHandMadeWords : Obligations.DecodeReadsHandMadeWords := by
  intro opw i h
  have hop := Instr.opcodeFits_iff.mp h
  have hC : wordC i.word = i.fieldC := by
    rw [Instr.word_eq, Fields.wordC_word hop, Instr.fields]
  refine ⟨decodeWord_word h, i.word_eq ▸ Fields.rsvdNz_word hop, ?_⟩
  rw [cOver, hC, decide_eq_true_iff, cMax]

/-- Settles O8: the opcode is checked first, and SHIFT_LEFT's is the only one that can fail. -/
theorem encodeRefusesIllFormed : Obligations.EncodeRefusesIllFormed := by
  intro opw i h
  cases hfits : i.opcodeFits opw with
  | true =>
    have hC : cMax < i.fieldC.toNat := by
      simpa [Instr.wellFormed, hfits, Instr.cInBound] using h
    exact Fields.encode_of_cMax_lt (Instr.opcodeFits_iff.mp hfits) hC
  | false =>
    have hop : ¬ i.fields.op < 2 ^ opw.bits := by
      rw [← Instr.opcodeFits_iff, hfits]
      exact Bool.false_ne_true
    have hmax : opw.opMax < i.mnemonic.code := by
      rw [← Nat.not_le, OpWidth.le_opMax_iff]
      exact hop
    rw [encode, encodeFields_opcode hmax, Instr.code_of_not_opcodeFits hfits]
    rfl

/-! ## The four-bit opcode field (30_encoding.md R76) -/

/-- SHIFT_LEFT's code is one above the largest that four bits hold. -/
theorem encodeFields_shiftLeft_four (b c d : Nat) :
    encodeFields .four Mnemonic.shiftLeft.code b c d = .error ⟨some .opcode, 16⟩ :=
  encodeFields_opcode (by decide) b c d

theorem decodeFields_four_ne_shiftLeft (w : InstrWord) :
    (decodeFields .four w).op ≠ Mnemonic.shiftLeft.code :=
  Nat.ne_of_lt (decodeFields_op_lt .four w)

theorem decodeFields_four_op_eq_zero {w : InstrWord} (h : w.extractLsb' 49 4 = 0#4) :
    (decodeFields .four w).op = 0 :=
  congrArg BitVec.toNat h

end Sys2Proof

namespace Sys2Proof.Machine

/-- With `RSVD_CHECK` off, a step on a word of an undefined opcode takes `UnknownOpcode`. -/
theorem step_unknownOpcode {s : State} {w : InstrWord} (hs : s.status = .run)
    (hcheck : s.cfg.rsvdCheck = false) (hw : fetchWord s.stream s.ip = some w)
    (hop : Mnemonic.ofCode (decodeFields s.cfg.opw w).op = none) :
    step s = .next (s.raise (.unknownOpcode (decodeFields s.cfg.opw w).op s.ip)) := by
  have hstage : decodeStage s.cfg s.ip w =
      .trap (.unknownOpcode (decodeFields s.cfg.opw w).op s.ip) := by
    rw [decodeStage, hcheck, Bool.false_and, if_neg Bool.false_ne_true,
      decodeWord_of_ofCode_none hop]
  rw [step_of_fetch hs hw, hstage]

/-- Settles O9. -/
theorem shiftLeftUnreachableAtWidthFour : Obligations.ShiftLeftUnreachableAtWidthFour := by
  refine ⟨encodeFields_shiftLeft_four, decodeFields_four_ne_shiftLeft, ?_,
    fun w => decodeFields_four_op_eq_zero, ?_⟩
  · intro w b c d h
    exact decodeFields_four_ne_shiftLeft w (congrArg Fields.op (decodeWord_eq_ok_iff.mp h))
  · intro s w hs hopw hcheck hw h
    have hop : (decodeFields s.cfg.opw w).op = 0 := by
      rw [hopw]
      exact decodeFields_four_op_eq_zero h
    rw [step_unknownOpcode hs hcheck hw (by rw [hop]; rfl), hop]
    rfl

/-! ## Field D of the arity-2 instructions (30_encoding.md R80) -/

/-- Settles O28: neither meaning mentions D. -/
theorem fieldDIgnoredByArityTwo : Obligations.FieldDIgnoredByArityTwo :=
  fun _ _ _ _ => ⟨rfl, rfl⟩

/-! ## Lines of the assembler (30_encoding.md R90 to R93) -/

theorem operandValues_ok_length {ts : List (List Char)} {n : Nat} {vs : List Nat}
    (h : operandValues n ts = .ok vs) : vs.length = ts.length := by
  induction ts generalizing n vs with
  | nil =>
    obtain rfl := Except.ok.inj h
    rfl
  | cons t ts ih =>
    rw [operandValues] at h
    split at h
    · cases h
    · split at h
      · rename_i rest hrest
        obtain rfl := Except.ok.inj h
        rw [List.length_cons, List.length_cons, ih hrest]
      · cases h

/-- A line that parses has as many operands as its mnemonic takes. -/
theorem parseTokens_ok_arity {toks : List (List Char)} {p : ParsedLine}
    (h : parseTokens toks = .ok p) : p.operands.length = p.mnemonic.arity := by
  cases toks with
  | nil => cases h
  | cons t ts =>
    rw [parseTokens] at h
    split at h
    · cases h
    · split_ifs at h with harity
      split at h
      · rename_i vs hvs
        obtain rfl := Except.ok.inj h
        exact (operandValues_ok_length hvs).trans (not_not.mp harity)
      · cases h

/-- The log entry names what was encoded: a blank D stands for the 0 of an arity-2 line. -/
theorem ParsedLine.encodeFields_logEntry (opw : OpWidth) {p : ParsedLine}
    (h : p.operands.length = p.mnemonic.arity) :
    encodeFields opw p.logEntry.a p.logEntry.b p.logEntry.c (p.logEntry.d.getD 0) = p.bytes opw := by
  have hD : p.logEntry.d.getD 0 = p.operand 2 := by
    by_cases h3 : p.mnemonic.arity = 3
    · simp [ParsedLine.logEntry, h3]
    · have h2 : p.operands.length ≤ 2 := h.trans_le (p.mnemonic.arity_cases.resolve_right h3).le
      simp [ParsedLine.logEntry, h3, ParsedLine.operand, List.getElem?_eq_none h2]
  rw [hD]
  rfl

/-- The encoder never gives other than seven bytes. -/
theorem encodeFields_ok_length {opw : OpWidth} {op b c d : Nat} {bytes : List Byte}
    (h : encodeFields opw op b c d = .ok bytes) : bytes.length = 7 := by
  obtain ⟨f, -, -, -, -, -, rfl⟩ := encodeFields_ok_inv h
  exact bytesOfWord_length _

/-- The stream and the log follow the lines: one entry and seven bytes for each, in order. -/
theorem assembleLines_ok {opw : OpWidth} {lines : List (Nat × List (List Char))}
    {bytes : List Byte} {log : List LogEntry} (h : assembleLines opw lines = .ok (bytes, log)) :
    log.length = lines.length ∧ bytes.length = 7 * log.length ∧
      ∀ j e, log[j]? = some e → ∃ toks p, (lines.map Prod.snd)[j]? = some toks ∧
        parseTokens toks = .ok p ∧ e = p.logEntry ∧
        p.bytes opw = .ok ((bytes.drop (7 * j)).take 7) := by
  induction lines generalizing bytes log with
  | nil =>
    obtain ⟨rfl, rfl⟩ := Prod.mk.inj (Except.ok.inj h)
    simp
  | cons line rest ih =>
    obtain ⟨n, toks⟩ := line
    obtain ⟨b, e, bs, es, hline, hrest, rfl, rfl⟩ := assembleLines_cons_ok h
    obtain ⟨p, hp, hb, rfl⟩ := assembleLine_ok hline
    obtain ⟨hlog, hlen, hall⟩ := ih hrest
    have hb7 : b.length = 7 := encodeFields_ok_length hb
    refine ⟨by simp [hlog], by rw [List.length_append, List.length_cons]; omega, ?_⟩
    intro j e he
    cases j with
    | zero =>
      obtain rfl := Option.some.inj he
      refine ⟨toks, p, rfl, hp, rfl, ?_⟩
      rw [hb, Nat.mul_zero, List.drop_zero, List.take_left' hb7]
    | succ j =>
      obtain ⟨toks', p', htoks, hp', he', hbytes⟩ := hall j e he
      refine ⟨toks', p', htoks, hp', he', ?_⟩
      have hdrop : (b ++ bs).drop (7 * (j + 1)) = bs.drop (7 * j) := by
        rw [Nat.mul_succ, Nat.add_comm, ← List.drop_drop, List.drop_left' hb7]
      rw [hbytes, hdrop]

theorem numberedLines_eq_nil {ls : List (List Char)} (h : ∀ l ∈ ls, tokens l = []) (n : Nat) :
    numberedLines n ls = [] := by
  have hblank : ls.filter (fun l => !(tokens l).isEmpty) = [] := by
    rw [List.filter_eq_nil_iff]
    intro l hl
    simp [h l hl]
  have hmap := numberedLines_tokens ls n
  rw [hblank] at hmap
  exact List.map_eq_nil_iff.mp hmap

/-- Settles O48. -/
theorem assembledStreamMatchesLog : Obligations.AssembledStreamMatchesLog := by
  intro opw text
  constructor
  · intro bytes log h
    obtain ⟨hlog, hlen, hall⟩ := assembleLines_ok h
    have htoks := numberedLines_tokens (splitLines text) 1
    refine ⟨hlen, ?_, fun j e he => ?_⟩
    · have hcount := congrArg List.length htoks
      rw [List.length_map, List.length_map] at hcount
      rw [hlog, hcount]
    · obtain ⟨toks, p, hj, hp, rfl, hbytes⟩ := hall j e he
      rw [htoks, List.getElem?_map, Option.map_eq_some_iff] at hj
      obtain ⟨l, hl, rfl⟩ := hj
      exact ⟨⟨l, p, hl, hp, rfl⟩,
        (p.encodeFields_logEntry opw (parseTokens_ok_arity hp)).trans hbytes⟩
  · intro hblank
    rw [assemble, numberedLines_eq_nil hblank]
    rfl

/-- Settles O49: the opcode is checked before every operand. -/
theorem shiftLeftLinesFailAtWidthFour : Obligations.ShiftLeftLinesFailAtWidthFour := by
  intro line toks operands hp
  have hbytes : ParsedLine.bytes .four { mnemonic := .shiftLeft, operands := operands } =
      .error ⟨some .opcode, 16⟩ := encodeFields_shiftLeft_four _ _ _
  rw [assembleLine, hp]
  simp only [hbytes]

/-! ## The printed form, read back (30_encoding.md R86 to R88, R94, R97) -/

/-- The line that the printed form of an instruction spells. -/
def printedLine (i : Instr) : ParsedLine :=
  { mnemonic := i.mnemonic
    operands := i.fieldB.toNat :: i.fieldC.toNat ::
      if i.mnemonic.arity = 3 then [i.fieldD.toNat] else [] }

/-- A text of operands, a space before each. -/
def operandsText (ns : List Nat) : List Char := ns.flatMap fun n => ' ' :: decimal n

@[simp] theorem operandsText_nil : operandsText [] = [] := rfl

theorem operandsText_cons (n : Nat) (ns : List Nat) :
    operandsText (n :: ns) = ' ' :: (decimal n ++ operandsText ns) := rfl

theorem printInstr_eq (i : Instr) :
    printInstr i = mnemonicSpelling i.mnemonic ++ operandsText (printedLine i).operands := by
  by_cases h : i.mnemonic.arity = 3 <;> simp [printInstr, printedLine, operandsText, h]

/-- A word and the operands after it are its tokens. -/
theorem tokens_append_operandsText {w : List Char} (hw : ∀ c ∈ w, isBlankChar c = false)
    (h0 : w ≠ []) (ns : List Nat) :
    tokens (w ++ operandsText ns) = w :: ns.map decimal := by
  induction ns generalizing w with
  | nil =>
    rw [operandsText_nil, List.append_nil]
    exact tokensFrom_last hw h0
  | cons n ns ih =>
    obtain ⟨hn0, -, hn⟩ := decimal_spec n
    rw [operandsText_cons, tokens, tokensFrom_space hw h0]
    exact congrArg (w :: ·) (ih (fun c hc => (hn c hc).2.1) hn0)

theorem tokens_printInstr (i : Instr) :
    tokens (printInstr i) =
      mnemonicSpelling i.mnemonic :: (printedLine i).operands.map decimal := by
  obtain ⟨h0, hchars, -⟩ := mnemonicSpelling_spec i.mnemonic
  rw [printInstr_eq, tokens_append_operandsText (fun c hc => (hchars c hc).1) h0]

theorem operandsText_no_lf {ns : List Nat} {c : Char} (h : c ∈ operandsText ns) : c ≠ '\n' := by
  obtain ⟨n, -, hc⟩ := List.mem_flatMap.mp h
  obtain ⟨-, -, hn⟩ := decimal_spec n
  rcases List.mem_cons.mp hc with rfl | hc
  · decide
  · exact (hn c hc).2.2

/-- The printed form is one line. -/
theorem splitLines_printInstr (i : Instr) : splitLines (printInstr i) = [printInstr i] := by
  obtain ⟨-, hchars, -⟩ := mnemonicSpelling_spec i.mnemonic
  refine splitLines_of_no_lf fun c hc => ?_
  rw [printInstr_eq] at hc
  rcases List.mem_append.mp hc with hc | hc
  · exact (hchars c hc).2
  · exact operandsText_no_lf hc

theorem operandValues_decimal (n : Nat) (ns : List Nat) :
    operandValues n (ns.map decimal) = .ok ns := by
  induction ns generalizing n with
  | nil => rfl
  | cons v vs ih => rw [List.map_cons, operandValues, operandValue_decimal, ih]

theorem printedLine_arity (i : Instr) :
    (printedLine i).operands.length = i.mnemonic.arity := by
  cases i <;> rfl

theorem parseTokens_printInstr (i : Instr) :
    parseTokens (tokens (printInstr i)) = .ok (printedLine i) := by
  obtain ⟨-, -, htoken⟩ := mnemonicSpelling_spec i.mnemonic
  have harity : ¬ ((printedLine i).operands.map decimal).length ≠ i.mnemonic.arity := by
    rw [List.length_map, printedLine_arity]
    simp
  rw [tokens_printInstr, parseTokens, htoken]
  simp only [if_neg harity, operandValues_decimal]
  rfl

/-- An arity-2 line encodes with D = 0, which is the instruction's own D where that is 0. -/
theorem printedLine_bytes {opw : OpWidth} {i : Instr}
    (hD : i.mnemonic.arity = 2 → i.fieldD = 0#12) : (printedLine i).bytes opw = encode opw i := by
  have h2 : (printedLine i).operand 2 = i.fieldD.toNat := by
    cases i with
    | storeMemory b c d => rfl
    | shiftRight b c d => rfl
    | shiftLeft b c d => rfl
    | loadConst b c d =>
      rw [hD rfl]
      rfl
    | loadMemory b c d =>
      rw [hD rfl]
      rfl
  rw [ParsedLine.bytes, h2]
  rfl

/-- A text of one line assembles to that line. -/
theorem assemble_single {opw : OpWidth} {text : List Char} {p : ParsedLine} {bytes : List Byte}
    (hline : splitLines text = [text]) (hp : parseTokens (tokens text) = .ok p)
    (hbytes : p.bytes opw = .ok bytes) : assemble opw text = .ok (bytes, [p.logEntry]) := by
  have htokens : (tokens text).isEmpty = false := by
    cases h : tokens text with
    | nil => rw [h] at hp; cases hp
    | cons t ts => rfl
  have hasm : assembleLine opw 1 (tokens text) = .ok (bytes, p.logEntry) := by
    rw [assembleLine, hp]
    simp only [hbytes]
  rw [assemble, hline, numberedLines, htokens]
  simp only [Bool.false_eq_true, if_false, numberedLines, assembleLines, hasm, List.append_nil]

/-- A canonical word is that of an instruction, whose encoding gives the word's bytes. -/
theorem exists_instr_of_canonical {opw : OpWidth} {w : InstrWord} (h : canonical opw w = true) :
    ∃ i, decodeWord opw w = .ok i ∧ encode opw i = .ok (bytesOfWord w) := by
  obtain ⟨hr, hc, m, hm⟩ := canonical_iff.mp h
  have hdec := decodeWord_of_ofCode (Mnemonic.ofCode_eq_some_iff.mpr hm)
  refine ⟨_, hdec, ?_⟩
  have hbytes := encodeFields_decodeFields hr hc
  rw [decodeWord_eq_ok_iff.mp hdec] at hbytes
  exact hbytes

/-- Settles O50. -/
theorem printedWordAssemblesBack : Obligations.PrintedWordAssemblesBack := by
  intro opw w hcanon hzero
  obtain ⟨i, hdec, henc⟩ := exists_instr_of_canonical hcanon
  have hfields := decodeWord_eq_ok_iff.mp hdec
  have hD : i.mnemonic.arity = 2 → i.fieldD = 0#12 := fun h2 =>
    calc i.fieldD = wordD w := (congrArg Fields.d hfields).symm
      _ = 0#12 := hzero i.mnemonic (by rw [hfields]; exact Mnemonic.ofCode_code _) h2
  refine ⟨printInstr i, (printedLine i).logEntry, by rw [printWord, hdec], ?_⟩
  exact assemble_single (splitLines_printInstr i) (parseTokens_printInstr i)
    ((printedLine_bytes hD).trans henc)

/-! ## Runs of assembled streams (30_encoding.md R68, R93; 60_exceptions.md R160) -/

/-- Every instruction of the stream is a canonical word at the machine's own width. -/
def State.CanonicalStream (s : State) : Prop :=
  ∀ k w, fetchWord s.stream k = some w → canonical s.cfg.opw w = true

/-- The run is over, and if a fault ended it, the fault was one of the data. -/
def State.EndedOnData (s : State) : Prop :=
  s.status = .done ∨
    (s.status = .fault ∧
      ∃ r, s.fault = some r ∧ (r.kind = .outOfBounds ∨ r.kind = .cellOverflow))

theorem State.EndedOnData.not_run {s : State} (h : s.EndedOnData) : s.status ≠ .run := by
  rintro hrun
  rcases h with h | ⟨h, -⟩ <;> rw [hrun] at h <;> cases h

/-- A canonical word passes both checks of the front end, whatever `RSVD_CHECK` is. -/
theorem decodeStage_of_canonical {cfg : Config} {w : InstrWord} (h : canonical cfg.opw w = true)
    (k : Nat) : ∃ i, decodeStage cfg k w = .instr i := by
  obtain ⟨hr, -, -⟩ := canonical_iff.mp h
  obtain ⟨i, hdec, -⟩ := exists_instr_of_canonical h
  refine ⟨i, ?_⟩
  rw [decodeStage, hr, Bool.and_false, if_neg Bool.false_ne_true, hdec]

/-- A step on a canonical word ends the run on its data, or commits. -/
theorem step_of_canonical {s : State} {w : InstrWord} (hs : s.status = .run)
    (hw : fetchWord s.stream s.ip = some w) (hcanon : canonical s.cfg.opw w = true) :
    ∃ t, step s = .next t ∧ (t.EndedOnData ∨ ∃ b r, t = s.commit b r) := by
  obtain ⟨i, hi⟩ := decodeStage_of_canonical hcanon s.ip
  have hstep : step s = exec i s := by rw [step_of_fetch hs hw, hi]
  rw [hstep]
  rcases exec_cases i s with ⟨f, v, -, he⟩ | ⟨-, he⟩ | ⟨r, -, -, he⟩
  · exact ⟨_, he, .inl (.inr ⟨rfl, _, rfl, .inl rfl⟩)⟩
  · exact ⟨_, he, .inl (.inr ⟨rfl, _, rfl, .inr rfl⟩)⟩
  · exact ⟨_, he, .inr ⟨_, r, rfl⟩⟩

/-- With a step for each instruction left, a run over canonical words ends on its data. -/
theorem runSteps_endedOnData {n : Nat} {s : State} (hcanon : s.CanonicalStream)
    (hs : s.status = .run) (hip : s.ip < s.count) (hn : s.count ≤ s.ip + n) :
    (runSteps n s).EndedOnData := by
  induction n generalizing s with
  | zero => omega
  | succ n ih =>
    have hheld : 7 * s.ip + 7 ≤ s.stream.length := by
      simp only [State.count, State.len] at hip
      omega
    obtain ⟨w, hw⟩ := (fetchWord_isSome_iff s.stream s.ip).mpr hheld
    obtain ⟨t, hstep, ht⟩ := step_of_canonical hs hw (hcanon _ w hw)
    have hrun : runSteps (n + 1) s = runSteps n t := by rw [runSteps, if_pos hs, hstep]
    rw [hrun]
    rcases ht with hended | ⟨b, r, rfl⟩
    · rwa [runSteps_of_not_run hended.not_run]
    · by_cases hlast : s.ip + 1 = s.count
      · have hdone : (s.commit b r).EndedOnData :=
          .inl (by rw [State.commit_status, if_pos hlast])
        rwa [runSteps_of_not_run hdone.not_run]
      · refine ih hcanon (by rw [State.commit_status, if_neg hlast, hs]) ?_ ?_
        · rw [State.commit_ip, State.commit_count]
          omega
        · rw [State.commit_ip, State.commit_count]
          omega

/-- What the assembler writes are canonical words, seven bytes each. -/
theorem assemble_canonical {opw : OpWidth} {text : List Char} {bytes : List Byte}
    {log : List LogEntry} (h : assemble opw text = .ok (bytes, log)) :
    bytes.length % 7 = 0 ∧
      ∀ k w, fetchWord bytes k = some w → canonical opw w = true := by
  obtain ⟨-, hlen, hall⟩ := assembleLines_ok h
  refine ⟨by omega, fun k w hw => ?_⟩
  have hheld := (fetchWord_isSome_iff bytes k).mp ⟨w, hw⟩
  have hk : k < log.length := by omega
  obtain ⟨toks, p, -, -, -, hbytes⟩ := hall k log[k] (List.getElem?_eq_getElem hk)
  rw [← bytesOfWord_of_be56 hw] at hbytes
  exact (canonicalWordsAreTheEncodersImage opw w).mpr ⟨p.mnemonic, _, _, _, hbytes⟩

/-- Settles O51: the empty stream is DONE at Start, and any other runs over canonical words. -/
theorem assembledStreamsFaultOnlyOnData : Obligations.AssembledStreamsFaultOnlyOnData := by
  intro s text bytes log n h
  obtain ⟨hwhole, hcanon⟩ := assemble_canonical h
  have hstatus := s.begin_status bytes n
  rw [if_neg (by simpa using hwhole)] at hstatus
  show (run s bytes n).EndedOnData
  rw [run]
  by_cases hempty : bytes.length = 0
  · rw [if_pos hempty] at hstatus
    have hdone : (s.begin bytes n).EndedOnData := .inl hstatus
    rwa [runSteps_of_not_run hdone.not_run]
  · rw [if_neg hempty] at hstatus
    have hstream : (s.begin bytes n).CanonicalStream := by
      simpa only [State.CanonicalStream, State.begin_stream, State.begin_cfg] using hcanon
    refine runSteps_endedOnData hstream hstatus ?_ ?_
    · rw [State.begin_ip, State.begin_count]
      omega
    · rw [State.begin_ip, State.begin_count]
      omega

end Sys2Proof.Machine
end

section
/-! Proofs of the family 40_execution.md: the step against the pseudocode of R111, what a step reads
and what it leaves unchanged (R103, R104, R109, R116), whole runs (R110, R112, R115) and the host
ports (R100, R118, R119, R122). -/

namespace Sys2Proof.Machine

open Sys2Proof.Claims

/-! ## The statements' next states are the model's

`faulted` writes out fault entry with R162's record, and `committed` writes out the commit. -/

theorem raise_reservedBits_eq (s : State) (bits : Nat) :
    s.raise (.reservedBits bits s.ip) = faulted s .reservedBits 8 none bits none := rfl

theorem raise_unknownOpcode_eq (s : State) (op : Nat) :
    s.raise (.unknownOpcode op s.ip) = faulted s .unknownOpcode 4 (some .opcode) op none := rfl

theorem raise_outOfBounds_eq (s : State) (f : FieldName) (v : Nat) :
    s.raise (.outOfBounds f v s.ip) = faulted s .outOfBounds 5 (some f) v none := rfl

theorem raise_cellOverflow_eq (s : State) (op b : Nat) :
    s.raise (.cellOverflow op b s.ip) = faulted s .cellOverflow 7 (some .B) b (some op) := rfl

theorem commit_eq_committed (s : State) (b r : Nat) : s.commit b r = committed s b r := rfl

/-! ## The opcode check (40_execution.md R103; 30_encoding.md R75) -/

/-- `DEFINED(OPW)` holds exactly the codes of a mnemonic that the opcode field can spell. -/
theorem mem_definedOpcodes_iff {opw : OpWidth} {op : Nat} (hop : op < 2 ^ opw.bits) :
    op ∈ definedOpcodes opw ↔ ∃ m, Mnemonic.ofCode op = some m := by
  simp only [Mnemonic.ofCode_eq_some_iff]
  constructor
  · intro h
    have hcode : op = 2 ∨ op = 10 ∨ op = 14 ∨ op = 15 ∨ op = 16 := by
      cases opw <;> simp [definedOpcodes] at h <;> omega
    rcases hcode with rfl | rfl | rfl | rfl | rfl
    · exact ⟨.loadConst, rfl⟩
    · exact ⟨.storeMemory, rfl⟩
    · exact ⟨.loadMemory, rfl⟩
    · exact ⟨.shiftRight, rfl⟩
    · exact ⟨.shiftLeft, rfl⟩
  · rintro ⟨m, rfl⟩
    cases opw with
    | four =>
      cases m with
      | shiftLeft => exact absurd hop (by decide)
      | _ => decide
    | five => cases m <;> decide

theorem ofCode_eq_none_iff (opw : OpWidth) (w : InstrWord) :
    Mnemonic.ofCode (decodeFields opw w).op = none ↔
      (decodeFields opw w).op ∉ definedOpcodes opw := by
  rw [mem_definedOpcodes_iff (decodeFields_op_lt opw w), Option.eq_none_iff_forall_ne_some,
    not_exists]

/-- A word with a defined opcode is an instruction. -/
theorem exists_instr_of_defined {opw : OpWidth} {w : InstrWord}
    (h : (decodeFields opw w).op ∈ definedOpcodes opw) : ∃ i, decodeWord opw w = .ok i := by
  obtain ⟨m, hm⟩ := (mem_definedOpcodes_iff (decodeFields_op_lt opw w)).mp h
  exact ⟨_, decodeWord_of_ofCode hm⟩

/-- An instruction is only decoded at a width whose opcode field can spell its code. -/
theorem code_mem_definedOpcodes {opw : OpWidth} {w : InstrWord} {i : Instr}
    (h : decodeWord opw w = .ok i) : i.mnemonic.code ∈ definedOpcodes opw := by
  have hlt := decodeFields_op_lt opw w
  rw [decodeWord_eq_ok_iff.mp h] at hlt
  exact (mem_definedOpcodes_iff hlt).mpr ⟨i.mnemonic, Mnemonic.ofCode_code _⟩

/-! ## The decode stage, one answer at a time (40_execution.md R103, R104) -/

theorem decodeStage_of_reserved {cfg : Config} {w : InstrWord} (hcheck : cfg.rsvdCheck = true)
    (hr : rsvdNz cfg.opw w = true) (k : Nat) :
    decodeStage cfg k w = .trap (.reservedBits (rsvdBits cfg.opw w).toNat k) := by
  rw [decodeStage, hcheck, hr, Bool.and_true, if_pos rfl]

/-- The reserved-bit check is off, or finds nothing. -/
theorem reservedCheck_eq_false {cfg : Config} {w : InstrWord}
    (h : cfg.rsvdCheck = false ∨ rsvdNz cfg.opw w = false) :
    (cfg.rsvdCheck && rsvdNz cfg.opw w) = false :=
  Bool.and_eq_false_iff.mpr h

theorem decodeStage_of_undefined {cfg : Config} {w : InstrWord}
    (hpass : cfg.rsvdCheck = false ∨ rsvdNz cfg.opw w = false)
    (hop : (decodeFields cfg.opw w).op ∉ definedOpcodes cfg.opw) (k : Nat) :
    decodeStage cfg k w = .trap (.unknownOpcode (decodeFields cfg.opw w).op k) := by
  rw [decodeStage, reservedCheck_eq_false hpass, if_neg Bool.false_ne_true,
    decodeWord_of_ofCode_none ((ofCode_eq_none_iff cfg.opw w).mpr hop)]

theorem decodeStage_of_instr {cfg : Config} {w : InstrWord} {i : Instr}
    (hpass : cfg.rsvdCheck = false ∨ rsvdNz cfg.opw w = false) (hi : decodeWord cfg.opw w = .ok i)
    (k : Nat) : decodeStage cfg k w = .instr i := by
  rw [decodeStage, reservedCheck_eq_false hpass, if_neg Bool.false_ne_true, hi]

/-- The instruction that passes the decode stage is the one its word decodes to. -/
theorem decodeWord_of_decodeStage {cfg : Config} {k : Nat} {w : InstrWord} {i : Instr}
    (h : decodeStage cfg k w = .instr i) : decodeWord cfg.opw w = .ok i := by
  rcases decodeStage_cases cfg k w with he | he | ⟨j, hj, he⟩ <;> rw [he] at h
  · cases h
  · cases h
  · obtain rfl := Fetched.instr.inj h
    exact hj

/-- With the check off, only the quadruple of a word counts. -/
theorem decodeStage_congr_of_unchecked {cfg : Config} {w w' : InstrWord}
    (hcheck : cfg.rsvdCheck = false) (h : decodeFields cfg.opw w' = decodeFields cfg.opw w)
    (k : Nat) : decodeStage cfg k w' = decodeStage cfg k w := by
  have hword : decodeWord cfg.opw w' = decodeWord cfg.opw w := by
    rw [decodeWord, h, ← decodeWord]
  simp only [decodeStage, hcheck, Bool.false_and, if_neg Bool.false_ne_true, hword, h]

/-! ## The step in RUN and outside it (40_execution.md R102) -/

theorem step_of_trap {s : State} {w : InstrWord} {r : FaultRecord} (hs : s.status = .run)
    (hw : fetchWord s.stream s.ip = some w) (h : decodeStage s.cfg s.ip w = .trap r) :
    step s = .next (s.raise r) := by
  rw [step_of_fetch hs hw, h]

theorem step_of_instr {s : State} {w : InstrWord} {i : Instr} (hs : s.status = .run)
    (hw : fetchWord s.stream s.ip = some w) (h : decodeStage s.cfg s.ip w = .instr i) :
    step s = exec i s := by
  rw [step_of_fetch hs hw, h]

theorem step_of_not_run {s : State} (h : s.status ≠ .run) :
    step s = .fault (.noStepEnabled s.status) := by
  have hstuck : fetchDecode s = .stuck (.noStepEnabled s.status) := by
    cases hst : s.status with
    | run => exact absurd hst h
    | _ => rw [fetchDecode, hst]
  rw [step, hstuck]

/-- Below `K` the stream holds the whole instruction (20_memory.md R42). -/
theorem exists_fetchWord_of_lt_count {s : State} (h : s.ip < s.count) :
    ∃ w, fetchWord s.stream s.ip = some w := by
  refine (fetchWord_isSome_iff s.stream s.ip).mpr ?_
  rw [State.count, State.len] at h
  omega

/-- Settles O14. -/
theorem stepRunsTheDecodedInstruction : Obligations.StepRunsTheDecodedInstruction := by
  intro s w i hs hw hpass hi
  rw [decodeBytes_of_be56 hw] at hi
  exact step_of_instr hs hw (decodeStage_of_instr hpass hi s.ip)

/-! ## One equation for the five instructions (40_execution.md R105 to R108) -/

/-- `IDX` of an instruction's opcode, with the fields' values (40_execution.md R105). -/
def instrIndices : Instr → List IndexField
  | .loadConst b _ _ => indicesB b
  | .storeMemory b c d => indicesBCD b c d
  | .loadMemory b c _ => indicesBC b c
  | .shiftRight b c d => indicesBCD b c d
  | .shiftLeft b c d => indicesBCD b c d

/-- The exact result of an instruction in a memory (40_execution.md R106). -/
def instrResult (i : Instr) (mem : Memory) : Nat :=
  specResult i.mnemonic.code i.fieldC.toNat i.fieldD.toNat mem

/-- Every instruction is the bounds check of its indices, then the width check of its exact
result. -/
theorem exec_eq (i : Instr) (s : State) :
    exec i s = checkIndices (instrIndices i) s
      (finish i.mnemonic.code (cellIndex i.fieldB) (cellHolds s.cfg.cellW (instrResult i s.mem))
        (instrResult i s.mem) s) := by
  cases i with
  | loadConst b c d => rfl
  | storeMemory b c d => rfl
  | loadMemory b c d => rfl
  | shiftRight b c d =>
    show execShiftRight b c d s = _
    rw [execShiftRight, shiftRightNat_eq]
    rfl
  | shiftLeft b c d =>
    show execShiftLeft b c d s = _
    rw [execShiftLeft, shiftLeftNat_eq, shiftLeftHolds_eq]
    rfl

theorem checkIndices_of_some {idx : List IndexField} {s : State} {f : IndexField}
    (h : firstOutOfBounds idx s.memSize = some f) (ok : Result) :
    checkIndices idx s ok = .next (s.raise (.outOfBounds f.1 f.2 s.ip)) := by
  rw [checkIndices, h]

/-- The first failing field in the order B, C, D; C is an index except in LOAD_CONST (code 2), and D
except in the arity-2 instructions (codes 2 and 14). -/
theorem firstOutOfBounds_instrIndices (i : Instr) (n : Nat) :
    firstOutOfBounds (instrIndices i) n =
      if n ≤ i.fieldB.toNat then some (.B, i.fieldB.toNat)
      else if i.mnemonic.code ≠ 2 ∧ n ≤ i.fieldC.toNat then some (.C, i.fieldC.toNat)
      else if i.mnemonic.code ≠ 2 ∧ i.mnemonic.code ≠ 14 ∧ n ≤ i.fieldD.toNat then
        some (.D, i.fieldD.toNat)
      else none := by
  cases i <;>
    simp [instrIndices, indicesB, indicesBC, indicesBCD, firstOutOfBounds_cons, cellIndex,
      Instr.mnemonic, Mnemonic.code, Instr.fieldB, Instr.fieldC, Instr.fieldD]

theorem overflows_eq_not_cellHolds (cellW : CellWidth) (r : Nat) :
    overflows cellW r = !cellHolds cellW r := by
  cases cellW with
  | finite bits => simp only [overflows, cellHolds, ← decide_not, not_lt]
  | unbounded => rfl

/-- The end of a step whose width verdict is that of its result. -/
theorem finish_eq (op b r : Nat) (s : State) :
    finish op b (cellHolds s.cfg.cellW r) r s =
      .next (if overflows s.cfg.cellW r then faulted s .cellOverflow 7 (some .B) b (some op)
        else committed s b r) := by
  rw [overflows_eq_not_cellHolds]
  cases cellHolds s.cfg.cellW r with
  | true => rfl
  | false => rfl

/-! ## The pseudocode, one branch at a time (40_execution.md R111) -/

theorem rsvdNz_iff (opw : OpWidth) (w : InstrWord) :
    rsvdNz opw w = true ↔ w &&& rsvdMask opw ≠ 0#56 := by
  rw [rsvdNz, rsvdBits, bne_iff_ne]

/-- The condition of the pseudocode's first check fails where the model's check lets the word
pass. -/
theorem not_reserved_of_pass {cfg : Config} {w : InstrWord}
    (h : cfg.rsvdCheck = false ∨ rsvdNz cfg.opw w = false) :
    ¬(cfg.rsvdCheck = true ∧ w &&& rsvdMask cfg.opw ≠ 0#56) := by
  rintro ⟨hcheck, hr⟩
  rw [hcheck, (rsvdNz_iff cfg.opw w).mpr hr] at h
  simp at h

theorem specStep_of_reserved {s : State} {w : InstrWord} (hcheck : s.cfg.rsvdCheck = true)
    (hr : rsvdNz s.cfg.opw w = true) :
    specStep s w = s.raise (.reservedBits (rsvdBits s.cfg.opw w).toNat s.ip) := by
  simp only [specStep, if_pos (And.intro hcheck ((rsvdNz_iff s.cfg.opw w).mp hr))]
  exact (raise_reservedBits_eq s _).symm

theorem specStep_of_undefined {s : State} {w : InstrWord}
    (hpass : s.cfg.rsvdCheck = false ∨ rsvdNz s.cfg.opw w = false)
    (hop : (decodeFields s.cfg.opw w).op ∉ definedOpcodes s.cfg.opw) :
    specStep s w = s.raise (.unknownOpcode (decodeFields s.cfg.opw w).op s.ip) := by
  have hnum : w.toNat / 2 ^ 49 % 2 ^ s.cfg.opw.bits = (decodeFields s.cfg.opw w).op :=
    (wordOp_eq s.cfg.opw w).symm
  simp only [specStep, if_neg (not_reserved_of_pass hpass), hnum, if_pos hop]
  exact (raise_unknownOpcode_eq s _).symm

/-- Past the two checks of the front end, the pseudocode is the instruction's meaning: the index
checks, the width check and the commit. -/
theorem exec_eq_specStep {s : State} {w : InstrWord} {i : Instr}
    (hpass : s.cfg.rsvdCheck = false ∨ rsvdNz s.cfg.opw w = false)
    (hi : decodeWord s.cfg.opw w = .ok i) : exec i s = .next (specStep s w) := by
  have hf := decodeWord_eq_ok_iff.mp hi
  have hop : w.toNat / 2 ^ 49 % 2 ^ s.cfg.opw.bits = i.mnemonic.code :=
    (wordOp_eq s.cfg.opw w).symm.trans (congrArg Fields.op hf)
  have hb : w.toNat / 2 ^ 38 % 2 ^ 11 = i.fieldB.toNat :=
    (wordB_toNat w).symm.trans (congrArg (fun f => f.b.toNat) hf)
  have hc : w.toNat / 2 ^ 12 % 2 ^ 19 = i.fieldC.toNat :=
    (wordC_toNat w).symm.trans (congrArg (fun f => f.c.toNat) hf)
  have hd : w.toNat % 2 ^ 12 = i.fieldD.toNat :=
    (wordD_toNat w).symm.trans (congrArg (fun f => f.d.toNat) hf)
  have hknown : ¬ i.mnemonic.code ∉ definedOpcodes s.cfg.opw :=
    not_not.mpr (code_mem_definedOpcodes hi)
  have hidx := firstOutOfBounds_instrIndices i s.memSize
  simp only [specStep, if_neg (not_reserved_of_pass hpass), hop, hb, hc, hd, if_neg hknown]
  rw [exec_eq]
  split_ifs at hidx ⊢ with hB hC hD hover
  · exact checkIndices_of_some hidx _
  · exact checkIndices_of_some hidx _
  · exact checkIndices_of_some hidx _
  all_goals
    rw [checkIndices_ok (firstOutOfBounds_eq_none.mp hidx), finish_eq]
  · exact congrArg _ (if_pos hover)
  · exact congrArg _ (if_neg hover)

/-- In RUN, with a word fetched, a step is the pseudocode on that word. -/
theorem step_eq_specStep {s : State} {w : InstrWord} (hs : s.status = .run)
    (hw : fetchWord s.stream s.ip = some w) : step s = .next (specStep s w) := by
  by_cases hr : s.cfg.rsvdCheck = true ∧ rsvdNz s.cfg.opw w = true
  · obtain ⟨hcheck, hnz⟩ := hr
    rw [step_of_trap hs hw (decodeStage_of_reserved hcheck hnz s.ip),
      specStep_of_reserved hcheck hnz]
  · have hpass : s.cfg.rsvdCheck = false ∨ rsvdNz s.cfg.opw w = false := by
      rwa [← Bool.and_eq_true_iff, Bool.not_eq_true, Bool.and_eq_false_iff] at hr
    by_cases hop : (decodeFields s.cfg.opw w).op ∈ definedOpcodes s.cfg.opw
    · obtain ⟨i, hi⟩ := exists_instr_of_defined hop
      rw [step_of_instr hs hw (decodeStage_of_instr hpass hi s.ip), exec_eq_specStep hpass hi]
    · rw [step_of_trap hs hw (decodeStage_of_undefined hpass hop s.ip),
        specStep_of_undefined hpass hop]

/-- Settles O15. -/
theorem stepIsTheSpecsPseudocode : Obligations.StepIsTheSpecsPseudocode :=
  ⟨fun _ _ h => (step_cases h).1, fun _ _ => step_eq_specStep⟩

/-- Settles O16: the invariant puts `ip` below `K` in RUN, so there is a word to fetch. -/
theorem stepEnabledExactlyInRun : Obligations.StepEnabledExactlyInRun := by
  intro s hinv
  refine ⟨⟨fun ⟨t, h⟩ => (step_cases h).1, fun hs => ?_⟩, step_of_not_run⟩
  obtain ⟨_, hip, _⟩ := hinv.of_run hs
  obtain ⟨w, hw⟩ := exists_fetchWord_of_lt_count hip
  exact ⟨_, step_eq_specStep hs hw⟩

/-! ## The faults of the front end (40_execution.md R103, R104) -/

/-- No instruction raises `UnknownOpcode`: that fault is the front end's. -/
theorem exec_ne_unknownOpcode (i : Instr) (s : State) (op : Nat) :
    exec i s ≠ .next (s.raise (.unknownOpcode op s.ip)) := by
  intro h
  rcases exec_cases i s with ⟨f, v, _, he⟩ | ⟨_, he⟩ | ⟨r, _, _, he⟩ <;>
    have ht := Host.Outcome.next.inj (he.symm.trans h)
  · cases congrArg State.fault ht
  · cases congrArg State.fault ht
  · have hip : s.ip + 1 = s.ip := congrArg State.ip ht
    omega

/-- Settles O17. -/
theorem undefinedOpcodeStopsTheRun : Obligations.UndefinedOpcodeStopsTheRun := by
  intro s w hs hw hpass
  constructor
  · intro hop
    exact step_of_trap hs hw (decodeStage_of_undefined hpass hop s.ip)
  · intro hstep hop
    obtain ⟨i, hi⟩ := exists_instr_of_defined hop
    rw [step_of_instr hs hw (decodeStage_of_instr hpass hi s.ip)] at hstep
    exact exec_ne_unknownOpcode i s _ hstep

/-! ## A step does not look at the other instructions (40_execution.md R113, R116) -/

/-- The commit reads the stream only for its length. -/
theorem commit_withStream {s : State} {stream : List Byte} (hlen : stream.length = s.stream.length)
    (b r : Nat) : (withStream s stream).commit b r = withStream (s.commit b r) stream := by
  have hcount : (withStream s stream).count = s.count := congrArg (· / 7) hlen
  simp only [State.commit, hcount]
  rfl

theorem finish_withStream {op b r : Nat} {fits : Bool} {s t : State} {stream : List Byte}
    (hlen : stream.length = s.stream.length) (h : finish op b fits r s = .next t) :
    finish op b fits r (withStream s stream) = .next (withStream t stream) := by
  cases fits with
  | true =>
    rw [finish_fits] at h ⊢
    obtain rfl := Host.Outcome.next.inj h
    rw [commit_withStream hlen]
  | false =>
    rw [finish_overflow] at h ⊢
    obtain rfl := Host.Outcome.next.inj h
    rfl

/-- The bounds check reads the memory size alone; `ok` and `ok'` are what follows on each stream. -/
theorem checkIndices_withStream {idx : List IndexField} {s t : State} {ok ok' : Result}
    {stream : List Byte} (hok : ok = .next t → ok' = .next (withStream t stream))
    (h : checkIndices idx s ok = .next t) :
    checkIndices idx (withStream s stream) ok' = .next (withStream t stream) := by
  cases hidx : firstOutOfBounds idx s.memSize with
  | some f =>
    rw [checkIndices_of_some hidx] at h
    obtain rfl := Host.Outcome.next.inj h
    exact checkIndices_of_some (s := withStream s stream) hidx ok'
  | none =>
    have hbelow := firstOutOfBounds_eq_none.mp hidx
    rw [checkIndices_ok hbelow] at h
    exact (checkIndices_ok (s := withStream s stream) hbelow ok').trans (hok h)

theorem exec_withStream {i : Instr} {s t : State} {stream : List Byte}
    (hlen : stream.length = s.stream.length) (h : exec i s = .next t) :
    exec i (withStream s stream) = .next (withStream t stream) := by
  rw [exec_eq] at h ⊢
  exact checkIndices_withStream (finish_withStream hlen) h

/-- A step does the same on two streams of one length whose words at `ip` the decode stage answers
alike, up to the stream. -/
theorem step_withStream {s t : State} {w w' : InstrWord} {stream : List Byte}
    (hlen : stream.length = s.stream.length) (hw : fetchWord s.stream s.ip = some w)
    (hw' : fetchWord stream s.ip = some w')
    (hstage : decodeStage s.cfg s.ip w' = decodeStage s.cfg s.ip w) (h : step s = .next t) :
    step (withStream s stream) = .next (withStream t stream) := by
  obtain ⟨hs, v, hv, hcase⟩ := step_cases h
  obtain rfl : w = v := Option.some.inj (hw.symm.trans hv)
  have hs' : (withStream s stream).status = .run := hs
  rcases hcase with ⟨r, hr, rfl⟩ | ⟨i, hi, hexec⟩
  · exact step_of_trap hs' hw' (hstage.trans hr)
  · exact (step_of_instr hs' hw' (hstage.trans hi)).trans (exec_withStream hlen hexec)

/-- Settles O19. -/
theorem stepReadsOnlyItsOwnWord : Obligations.StepReadsOnlyItsOwnWord := by
  intro s t stream hlen hwindow h
  obtain ⟨_, w, hw, _⟩ := step_cases h
  have hw' : fetchWord stream s.ip = some w := by rwa [fetchWord, hwindow, ← fetchWord]
  exact step_withStream hlen hw hw' rfl h

/-- Clearing the reserved bits of a word keeps its fields (30_encoding.md R67). -/
theorem decodeFields_clearReserved (opw : OpWidth) (w : InstrWord) :
    decodeFields opw (w &&& ~~~ rsvdMask opw) = decodeFields opw w := by
  refine (decodeIgnoresReservedBits opw _ w fun i hi hkept => ?_).1
  have hmask : (rsvdMask opw).getLsbD i = false := by
    rw [rsvdMask_getLsbD opw ⟨i, hi⟩]
    exact decide_eq_false hkept
  rw [BitVec.getLsbD_and, BitVec.getLsbD_not, hmask]
  simp [hi]

/-- Settles O18: with the check off, the decode stage sees the same fields in the cleared word. -/
theorem reservedBitsStopTheRunWhenChecked : Obligations.ReservedBitsStopTheRunWhenChecked := by
  constructor
  · intro s w hs hw hcheck hr
    exact step_of_trap hs hw (decodeStage_of_reserved hcheck hr s.ip)
  · intro s t w stream _ hcheck hw hlen hw' h
    have hfields := decodeFields_clearReserved s.cfg.opw w
    have hstage := decodeStage_congr_of_unchecked hcheck hfields s.ip
    exact step_withStream hlen hw hw' hstage h

/-! ## What an instruction and a step leave unchanged (40_execution.md R108, R109) -/

/-- Settles O29, by the three outcomes of an instruction. -/
theorem execFrame : Obligations.ExecFrame := by
  intro i s t h
  rcases exec_cases i s with ⟨f, v, _, he⟩ | ⟨_, he⟩ | ⟨r, _, _, he⟩ <;>
    obtain rfl := Host.Outcome.next.inj (h.symm.trans he)
  · exact ⟨rfl, rfl, rfl, .inr ⟨rfl, rfl, rfl, _, rfl, rfl, rfl⟩⟩
  · exact ⟨rfl, rfl, rfl, .inr ⟨rfl, rfl, rfl, _, rfl, rfl, rfl⟩⟩
  · exact ⟨rfl, rfl, rfl, .inl ⟨rfl, rfl, s.commit_status _ r, fun _ => exec_read_of_ne_fieldB h⟩⟩

/-- Settles O30: the faults are the front end's two and the instruction's two. -/
theorem stepIsAllOrNothing : Obligations.StepIsAllOrNothing := by
  intro s t h
  obtain ⟨_, w, hw, ⟨r, hr, rfl⟩ | ⟨i, hi, hexec⟩⟩ := step_cases h
  · refine ⟨w, hw, .inr ?_⟩
    rcases decodeStage_cases s.cfg s.ip w with he | he | ⟨i, _, he⟩ <;> rw [he] at hr
    · obtain rfl := Fetched.trap.inj hr
      exact ⟨_, _, _, _, raise_reservedBits_eq s _⟩
    · obtain rfl := Fetched.trap.inj hr
      exact ⟨_, _, _, _, raise_unknownOpcode_eq s _⟩
    · cases hr
  · have hB : (decodeFields s.cfg.opw w).b = i.fieldB :=
      congrArg Fields.b (decodeWord_eq_ok_iff.mp (decodeWord_of_decodeStage hi))
    refine ⟨w, hw, ?_⟩
    rw [hB]
    rcases exec_cases i s with ⟨f, v, _, he⟩ | ⟨_, he⟩ | ⟨r, hb, _, he⟩ <;>
      obtain rfl := Host.Outcome.next.inj (hexec.symm.trans he)
    · exact .inr ⟨_, _, _, _, raise_outOfBounds_eq s f v⟩
    · exact .inr ⟨_, _, _, _, raise_cellOverflow_eq s _ _⟩
    · exact .inl ⟨hb, r, commit_eq_committed s _ r⟩

/-! ## The host ports (40_execution.md R100, R101, R118, R119, R122) -/

/-- Where its preconditions hold, the Start port has its effect. -/
theorem start_eq_begin {caps : Caps} {stream : List Byte} {n : Nat} {s : State}
    (hs : s.status ≠ .run) (hstream : stream.length ≤ caps.streamCap) (hn : n ≤ caps.memCap) :
    start caps stream n s = .next (s.begin stream n) := by
  rw [start, if_neg hs, if_neg hstream.not_gt, if_neg hn.not_gt]

/-- Start overwrites every field but the configuration. -/
theorem begin_eq_begin_resetWith (s : State) (stream : List Byte) (n : Nat) :
    s.begin stream n = (State.resetWith s.cfg).begin stream n := by
  unfold State.begin
  rfl

theorem begin_of_malformed (s : State) {stream : List Byte} (h : stream.length % 7 ≠ 0) (n : Nat) :
    s.begin stream n = { cfg := s.cfg, stream := stream, memSize := n, mem := [], ip := 0,
                         status := .fault,
                         fault := some (.malformedStream stream.length) } := by
  rw [State.begin, if_pos h]
  rfl

/-- Settles O42. -/
theorem startEffect : Obligations.StartEffect := by
  intro caps stream n s hs hstream hn
  have hstatus := s.begin_status stream n
  have hfault := s.begin_fault stream n
  refine ⟨_, start_eq_begin hs hstream hn, s.begin_cfg stream n, s.begin_stream stream n,
    s.begin_len stream n, s.begin_memSize stream n, fun a => ?_, s.begin_ip stream n,
    fun hbad => ?_, fun hempty => ?_, fun hwhole hne => ?_⟩
  · rw [State.begin_mem, Memory.read_nil]
  · rw [if_pos hbad] at hstatus hfault
    exact ⟨hstatus, hfault⟩
  · have hwhole : ¬ stream.length % 7 ≠ 0 := by omega
    rw [if_neg hwhole] at hstatus hfault
    rw [if_pos hempty] at hstatus
    exact ⟨hstatus, hfault⟩
  · rw [if_neg (not_not.mpr hwhole)] at hstatus hfault
    rw [if_neg hne] at hstatus
    exact ⟨hstatus, hfault⟩

/-- A read of the dump port outside RUN leaves the state as it is. -/
theorem transition_dump {s : State} (hs : s.status ≠ .run) (caps : Caps) (first stop : Int) :
    transition caps (.dump first stop) s = .next s := by
  rw [transition, if_neg hs]

/-- Settles O44. -/
theorem dumpPortAnswers : Obligations.DumpPortAnswers := by
  intro caps s first stop hs
  have hdump : dump s first stop = .ok (dumpCells s first stop) := by rw [dump, if_neg hs]
  rw [hdump]
  refine ⟨fun hrange => ?_, fun hrange => ?_, transition_dump hs caps first stop⟩
  · rcases dumpCells_cases s first stop with ⟨_, hcells⟩ | ⟨hbad, _⟩
    · refine ⟨_, congrArg _ hcells, ?_, fun j hj => ?_⟩
      · rw [dumpRange_length]
        omega
      · rw [dumpRange_length] at hj
        exact dumpRange_getElem? s.mem first.toNat hj
    · exact absurd hrange hbad
  · rcases dumpCells_cases s first stop with ⟨hgood, _⟩ | ⟨_, hcells⟩
    · exact absurd hgood hrange
    · exact congrArg _ hcells

/-- Settles O45: the Start port looks at the status, then at the two capacities. -/
theorem hostDutiesHaveNoMove : Obligations.HostDutiesHaveNoMove := by
  intro caps stream n first stop s
  refine ⟨fun hs => ⟨?_, ?_⟩, fun hs hlong => ?_, fun hs hstream hbig => ?_⟩
  · rw [transition, start, if_pos hs]
  · rw [transition, if_pos hs]
  · rw [transition, start, if_neg hs, if_pos hlong]
  · rw [transition, start, if_neg hs, if_neg hstream.not_gt, if_pos hbig]

/-- Settles O46: the status port is a projection of the state. -/
theorem statusPortShowsState : Obligations.StatusPortShowsState :=
  fun _ _ => ⟨rfl, rfl⟩

/-- Settles O39: there is no step in DONE or FAULT, and the reads change nothing. -/
theorem stoppedRunLeftOnlyByStartOrReset : Obligations.StoppedRunLeftOnlyByStartOrReset := by
  intro caps e s t hstop h hne
  obtain ⟨stream, n, rfl, _⟩ | ⟨_, hstep⟩ | ⟨rfl, _⟩ | rfl := transition_cases h
  · exact .inl ⟨stream, n, rfl⟩
  · obtain ⟨hs, _⟩ := step_cases hstep
    simp [hs] at hstop
  · exact .inr rfl
  · exact absurd rfl hne

/-! ## Runs (40_execution.md R110, R112, R115, R198) -/

/-- Settles O53. -/
theorem runIsStartThenSteps : Obligations.RunIsStartThenSteps := by
  intro caps s t stream n h
  obtain ⟨hs, hstream, hn, rfl⟩ := start_next h
  exact ⟨hs, hstream, hn, rfl⟩

/-- Settles O40. -/
theorem runForgetsEarlierState : Obligations.RunForgetsEarlierState := by
  intro s s' stream n hcfg
  rw [run, run, begin_eq_begin_resetWith s, begin_eq_begin_resetWith s', hcfg]

/-- Settles O41. -/
theorem malformedStreamRunsNothing : Obligations.MalformedStreamRunsNothing := by
  intro s stream n h
  have hbegin := begin_of_malformed s h n
  have hstop : (s.begin stream n).status ≠ .run := by simp [hbegin]
  rw [run, runSteps_of_not_run hstop, hbegin]
  rfl

theorem runSteps_succ_of_step {s t : State} (h : step s = .next t) (n : Nat) :
    runSteps (n + 1) s = runSteps n t := by
  obtain ⟨hs, _⟩ := step_cases h
  rw [runSteps, if_pos hs, h]

/-- Steps that stopped in RUN are steps that had a next state each. -/
theorem exists_step_of_runSteps_stopped {n : Nat} {s : State} (hs : s.status = .run)
    (hend : (runSteps (n + 1) s).status ≠ .run) : ∃ t, step s = .next t := by
  rw [runSteps, if_pos hs] at hend
  split at hend
  case _ t h => exact ⟨t, h⟩
  all_goals exact absurd hs hend

/-- After the run has stopped, more steps change nothing. -/
theorem runSteps_of_stopped {n m : Nat} {s : State} (hend : (runSteps n s).status ≠ .run)
    (hle : n ≤ m) : runSteps m s = runSteps n s := by
  induction n generalizing s m with
  | zero => exact runSteps_of_not_run hend m
  | succ n ih =>
    by_cases hs : s.status = .run
    · obtain ⟨t, hstep⟩ := exists_step_of_runSteps_stopped hs hend
      obtain ⟨m, rfl⟩ : ∃ m', m = m' + 1 := ⟨m - 1, by omega⟩
      rw [runSteps_succ_of_step hstep] at hend
      rw [runSteps_succ_of_step hstep, runSteps_succ_of_step hstep, ih hend (by omega)]
    · rw [runSteps_of_not_run hs, runSteps_of_not_run hs]

/-- The run is over as R110 says: DONE at `K` without a fault, or FAULT with a record. -/
def State.Ended (s : State) : Prop :=
  (s.status = .done ∧ s.ip = s.count ∧ s.fault = none) ∨ (s.status = .fault ∧ s.fault ≠ none)

/-- The run goes on: RUN, with an instruction at `ip` and no fault. -/
def State.InProgress (s : State) : Prop :=
  s.status = .run ∧ s.ip < s.count ∧ s.fault = none

theorem State.Ended.not_run {s : State} (h : s.Ended) : s.status ≠ .run := by
  rintro hrun
  rcases h with ⟨h, -⟩ | ⟨h, -⟩ <;> rw [hrun] at h <;> cases h

/-- Start ends the run at once or leaves it in progress. -/
theorem begin_ended_or_inProgress (s : State) (stream : List Byte) (n : Nat) :
    (s.begin stream n).Ended ∨ (s.begin stream n).InProgress := by
  have hmatch := s.begin_statusMatches stream n
  cases hst : (s.begin stream n).status with
  | idle => rw [State.begin_status] at hst; split_ifs at hst
  | run =>
    obtain ⟨_, hip, hfault⟩ := (State.statusMatches_of_run hst).mp hmatch
    exact .inr ⟨hst, hip, hfault⟩
  | done =>
    obtain ⟨_, hip, hfault⟩ := (State.statusMatches_of_done hst).mp hmatch
    exact .inl (.inl ⟨hst, hip, hfault⟩)
  | fault =>
    refine .inl (.inr ⟨hst, fun hnone => ?_⟩)
    simp only [State.statusMatches, hst, hnone] at hmatch

/-- A run in progress has a step, which ends it or goes on to the next instruction. -/
theorem step_of_inProgress {s : State} (h : s.InProgress) :
    ∃ t, step s = .next t ∧ (t.Ended ∨ t.InProgress ∧ t.ip = s.ip + 1 ∧ t.count = s.count) := by
  obtain ⟨hs, hip, hfault⟩ := h
  obtain ⟨w, hw⟩ := exists_fetchWord_of_lt_count hip
  have hstep := step_eq_specStep hs hw
  refine ⟨_, hstep, ?_⟩
  obtain ⟨_, ⟨r, _, ht⟩ | ⟨b, r, _, _, ht⟩⟩ := step_raisesOrCommits hstep <;> rw [ht]
  · exact .inl (.inr ⟨s.raise_status r, by simp⟩)
  · by_cases hlast : s.ip + 1 = s.count
    · exact .inl (.inl ⟨by rw [State.commit_status, if_pos hlast], hlast, hfault⟩)
    · have hrun : (s.commit b r).status = .run := by rw [State.commit_status, if_neg hlast, hs]
      have hbelow : s.ip + 1 < s.count := by omega
      exact .inr ⟨⟨hrun, hbelow, hfault⟩, s.commit_ip b r, s.commit_count b r⟩

/-- One step for each instruction left ends the run. -/
theorem runSteps_ended {n : Nat} {s : State} (h : s.Ended ∨ s.InProgress)
    (hn : s.count ≤ s.ip + n) : (runSteps n s).Ended := by
  induction n generalizing s with
  | zero =>
    rcases h with h | ⟨_, hip, _⟩
    · exact h
    · omega
  | succ n ih =>
    rcases h with h | h
    · rwa [runSteps_of_not_run h.not_run]
    · obtain ⟨t, hstep, ht⟩ := step_of_inProgress h
      rw [runSteps_succ_of_step hstep]
      rcases ht with hended | ⟨hgoes, hip, hcount⟩
      · rwa [runSteps_of_not_run hended.not_run]
      · exact ih (.inr hgoes) (by omega)

theorem run_ended (s : State) (stream : List Byte) (n : Nat) : (run s stream n).Ended :=
  runSteps_ended (begin_ended_or_inProgress s stream n)
    (by rw [State.begin_count, State.begin_ip, Nat.zero_add])

theorem run_count (s : State) (stream : List Byte) (n : Nat) :
    (run s stream n).count = stream.length / 7 := by
  obtain ⟨hstream, _⟩ := stepsNeverWriteProgramOrSize (stream.length / 7) (s.begin stream n)
  rw [State.count, State.len, run, hstream, State.begin_stream]

/-- Settles O37. -/
theorem runEndsWithinStreamLength : Obligations.RunEndsWithinStreamLength := by
  intro s stream n
  have hended := run_ended s stream n
  refine ⟨?_, fun m hm => runSteps_of_stopped hended.not_run hm⟩
  rwa [State.Ended, run_count] at hended

/-! ## A fault hides the later instructions (40_execution.md R116) -/

theorem ip_le_runSteps_ip (n : Nat) (s : State) : s.ip ≤ (runSteps n s).ip := by
  refine runSteps_induct (P := fun t => s.ip ≤ t.ip) (fun t u ht hstep => ?_) n le_rfl
  obtain ⟨_, ⟨r, _, rfl⟩ | ⟨b, r, _, _, rfl⟩⟩ := step_raisesOrCommits hstep
  · exact ht
  · exact Nat.le_succ_of_le ht

/-- Streams that agree up to and including instruction `k` agree on every instruction up to `k`. -/
theorem window_eq_of_take_eq {stream stream' : List Byte} {j k : Nat} (hjk : j ≤ k)
    (h : stream.take (7 * (k + 1)) = stream'.take (7 * (k + 1))) :
    (stream.drop (7 * j)).take 7 = (stream'.drop (7 * j)).take 7 := by
  have hwindow (l : List Byte) :
      (l.drop (7 * j)).take 7 = ((l.take (7 * (k + 1))).drop (7 * j)).take 7 := by
    rw [List.drop_take, List.take_take, min_eq_left (by omega)]
  rw [hwindow stream, hwindow stream', h]

/-- Steps that stop at instruction `k` do the same on a stream that agrees up to and including `k`:
`ip` never falls, so every one of them ran an instruction up to `k`. -/
theorem runSteps_withStream {n k : Nat} {s : State} {stream : List Byte}
    (hlen : stream.length = s.stream.length)
    (hagree : stream.take (7 * (k + 1)) = s.stream.take (7 * (k + 1)))
    (hend : (runSteps n s).status ≠ .run) (hip : (runSteps n s).ip ≤ k) :
    runSteps n (withStream s stream) = withStream (runSteps n s) stream := by
  induction n generalizing s with
  | zero => rfl
  | succ n ih =>
    by_cases hs : s.status = .run
    · obtain ⟨t, hstep⟩ := exists_step_of_runSteps_stopped hs hend
      have hle := (ip_le_runSteps_ip (n + 1) s).trans hip
      have hstep' := stepReadsOnlyItsOwnWord s t stream hlen (window_eq_of_take_eq hle hagree) hstep
      obtain ⟨hstream, _⟩ := step_sameProgram hstep
      rw [runSteps_succ_of_step hstep] at hend hip
      rw [runSteps_succ_of_step hstep, runSteps_succ_of_step hstep']
      exact ih (by rw [hstream, hlen]) (by rw [hstream, hagree]) hend hip
    · rw [runSteps_of_not_run hs, runSteps_of_not_run (s := withStream s stream) hs]

/-- Start looks at a stream only for its length, and keeps it. -/
theorem begin_withStream (s : State) {stream stream' : List Byte}
    (hlen : stream.length = stream'.length) (n : Nat) :
    s.begin stream' n = withStream (s.begin stream n) stream' := by
  unfold State.begin
  dsimp only
  rw [hlen]
  split_ifs <;> rfl

/-- Settles O38. -/
theorem faultHidesLaterInstructions : Obligations.FaultHidesLaterInstructions := by
  intro s stream stream' n k hlen hagree hfault hip
  have hend : (run s stream n).status ≠ .run := by rw [hfault]; decide
  rw [run, ← hlen, begin_withStream s hlen n]
  exact runSteps_withStream (by rw [State.begin_stream, hlen]) (by rw [State.begin_stream, hagree])
    hend hip.le

end Sys2Proof.Machine
end

section
/-! Proofs of the family 41_load.md: what LOAD_CONST (R130) and LOAD_MEMORY (R131) commit and on which
field they fault, and the example words of the five instructions. -/

namespace Sys2Proof

/-! ## The example words (41_load.md R130, R131; 42_combine_shift.md R142 to R144) -/

/-- The bytes of an instruction's word decode to the instruction, where its opcode fits the field. -/
theorem decodeBytes_of_word {opw : OpWidth} {bs : List Byte} {i : Instr}
    (hbytes : bs = bytesOfWord i.word) (hfits : i.opcodeFits opw = true) :
    decodeBytes opw bs = .ok i := by
  rw [hbytes, decodeBytes_of_be56 (be56_bytesOfWord _), decodeWord_word hfits]

/-- At `OPW = 4` the opcode field drops the top bit of SHIFT_LEFT's code 16, and 0 is undefined
(30_encoding.md R76). -/
theorem decodeBytes_four_of_shiftLeft_word {bs : List Byte} {b : BitVec 11} {c : BitVec 19}
    {d : BitVec 12} (hbytes : bs = bytesOfWord (Instr.shiftLeft b c d).word)
    (hop : (Instr.shiftLeft b c d).word.extractLsb' 49 4 = 0#4) :
    decodeBytes .four bs = .error (.unknownOpcode 0) := by
  have hzero := decodeFields_four_op_eq_zero hop
  have hnone : Mnemonic.ofCode (decodeFields .four (Instr.shiftLeft b c d).word).op = none := by
    rw [hzero]
    rfl
  rw [hbytes, decodeBytes_of_be56 (be56_bytesOfWord _), decodeWord_of_ofCode_none hnone, hzero]

/-- Settles O11: each example is the byte form of its instruction's word. -/
theorem exampleWordsDecode : Obligations.ExampleWordsDecode :=
  ⟨decodeBytes_of_word (by decide) rfl, decodeBytes_of_word (by decide) rfl,
    decodeBytes_of_word (by decide) rfl, decodeBytes_of_word (by decide) rfl,
    decodeBytes_of_word (by decide) rfl,
    decodeBytes_four_of_shiftLeft_word (b := 1) (c := 0) (d := 1) (by decide) (by decide)⟩

end Sys2Proof

namespace Sys2Proof.Machine

open Sys2Proof.Claims

/-! ## The outcomes of an instruction, each under its condition (40_execution.md R105 to R108) -/

/-- With every index in bounds and a result that fits, an instruction commits its exact result. -/
theorem exec_commits {i : Instr} {s : State} (hidx : ∀ f ∈ instrIndices i, f.2 < s.memSize)
    (hfits : cellHolds s.cfg.cellW (instrResult i s.mem) = true) :
    exec i s = .next (committed s i.fieldB.toNat (instrResult i s.mem)) := by
  rw [exec_eq, checkIndices_ok hidx, hfits, finish_fits, commit_eq_committed, cellIndex]

/-- An instruction faults on its first index field out of bounds, whatever its result. -/
theorem exec_faults_of_some {i : Instr} {s : State} {f : FieldName} {v : Nat}
    (h : firstOutOfBounds (instrIndices i) s.memSize = some (f, v)) :
    exec i s = .next (faulted s .outOfBounds 5 (some f) v none) := by
  rw [exec_eq, checkIndices_of_some h, raise_outOfBounds_eq]

/-- B is an index of all five instructions, and the first one checked. -/
theorem exec_faults_on_B {i : Instr} {s : State} (h : s.memSize ≤ i.fieldB.toNat) :
    exec i s = .next (faulted s .outOfBounds 5 (some .B) i.fieldB.toNat none) :=
  exec_faults_of_some (by rw [firstOutOfBounds_instrIndices, if_pos h])

/-- C is checked after B, in every instruction but LOAD_CONST. -/
theorem exec_faults_on_C {i : Instr} {s : State} (hcode : i.mnemonic.code ≠ 2)
    (hb : i.fieldB.toNat < s.memSize) (hc : s.memSize ≤ i.fieldC.toNat) :
    exec i s = .next (faulted s .outOfBounds 5 (some .C) i.fieldC.toNat none) :=
  exec_faults_of_some (by
    rw [firstOutOfBounds_instrIndices, if_neg (not_le.mpr hb), if_pos ⟨hcode, hc⟩])

/-! ## The results of the two loads fit a cell (00_scope.md R5; 20_memory.md R43) -/

/-- An admitted cell width holds every 19-bit value, so every immediate. -/
theorem cellHolds_immediate {w : CellWidth} (h : w.wf = true) (c : BitVec 19) :
    cellHolds w c.toNat = true := by
  rw [cellHolds_iff]
  rintro bits rfl
  have hbits : 19 ≤ bits := of_decide_eq_true h
  exact c.isLt.trans_le (Nat.pow_le_pow_right Nat.two_pos hbits)

/-- A cell reads as a listed value, which fits, or as 0, which fits every width. -/
theorem cellHolds_read {s : State} (h : s.cellsFit) (a : Nat) :
    cellHolds s.cfg.cellW (s.mem.read a) = true := by
  obtain hzero | hmem := Memory.read_eq_zero_or_mem s.mem a
  · rw [hzero, cellHolds_zero]
  · exact (h _ hmem).2

/-! ## The two loads (41_load.md R130, R131) -/

/-- Settles O20: C is no index of LOAD_CONST, and as a result it fits every admitted cell width. -/
theorem loadConstResult : Obligations.LoadConstResult := by
  intro s b c d
  refine ⟨fun hwf hb => ?_, fun hb => exec_faults_on_B hb⟩
  have hidx : ∀ f ∈ instrIndices (.loadConst b c d), f.2 < s.memSize :=
    List.forall_mem_singleton.mpr hb
  exact exec_commits hidx (cellHolds_immediate hwf c)

/-- Settles O21: what LOAD_MEMORY copies was a cell's value before, so it fits a cell. -/
theorem loadMemoryResult : Obligations.LoadMemoryResult := by
  intro s b c d
  have hcode : Mnemonic.loadMemory.code ≠ 2 := by decide
  refine ⟨fun hfit hb hc => ?_, fun hb => exec_faults_on_B hb,
    fun hb hc => exec_faults_on_C hcode hb hc⟩
  have hidx : ∀ f ∈ instrIndices (.loadMemory b c d), f.2 < s.memSize :=
    List.forall_mem_cons.mpr ⟨hb, List.forall_mem_singleton.mpr hc⟩
  exact exec_commits hidx (cellHolds_read hfit c.toNat)

end Sys2Proof.Machine
end

section
/-! Proofs of the family 42_combine_shift.md: what STORE_MEMORY (R142), SHIFT_RIGHT (R143) and
SHIFT_LEFT (R144) commit and on what they fault, and which results raise `CellOverflow` (R141). -/

namespace Sys2Proof.Machine

open Sys2Proof.Claims

/-! ## The three indices of an arity-3 instruction (40_execution.md R105) -/

/-- D is checked after B and C, except in the arity-2 instructions. -/
theorem exec_faults_on_D {i : Instr} {s : State}
    (hcode : i.mnemonic.code ≠ 2 ∧ i.mnemonic.code ≠ 14) (hb : i.fieldB.toNat < s.memSize)
    (hc : i.fieldC.toNat < s.memSize) (hd : s.memSize ≤ i.fieldD.toNat) :
    exec i s = .next (faulted s .outOfBounds 5 (some .D) i.fieldD.toNat none) :=
  exec_faults_of_some (by
    rw [firstOutOfBounds_instrIndices, if_neg (not_le.mpr hb), if_neg fun h => not_le.mpr hc h.2,
      if_pos ⟨hcode.1, hcode.2, hd⟩])

theorem forall_mem_indicesBCD {b : BitVec 11} {c : BitVec 19} {d : BitVec 12} {n : Nat} :
    (∀ f ∈ indicesBCD b c d, f.2 < n) ↔ b.toNat < n ∧ c.toNat < n ∧ d.toNat < n := by
  simp [indicesBCD, cellIndex]

theorem instrIndices_of_arity_three {i : Instr} (h : i.mnemonic.arity = 3) :
    instrIndices i = indicesBCD i.fieldB i.fieldC i.fieldD := by
  cases i with
  | loadConst | loadMemory => cases h
  | storeMemory | shiftRight | shiftLeft => rfl

theorem code_of_arity_three {m : Mnemonic} (h : m.arity = 3) : m.code ≠ 2 ∧ m.code ≠ 14 := by
  cases m with
  | loadConst | loadMemory => cases h
  | storeMemory | shiftRight | shiftLeft => decide

/-! ## When an instruction takes CellOverflow (40_execution.md R107; 42_combine_shift.md R141) -/

theorem overflows_finite_iff (bits r : Nat) : overflows (.finite bits) r = true ↔ 2 ^ bits ≤ r :=
  decide_eq_true_iff

/-- With every index in bounds and a result that does not fit, an instruction takes `CellOverflow`,
whose record names its opcode. -/
theorem exec_overflows {i : Instr} {s : State} (hidx : ∀ f ∈ instrIndices i, f.2 < s.memSize)
    (hover : overflows s.cfg.cellW (instrResult i s.mem) = true) :
    exec i s =
      .next (faulted s .cellOverflow 7 (some .B) i.fieldB.toNat (some i.mnemonic.code)) := by
  rw [exec_eq, checkIndices_ok hidx, finish_eq, if_pos hover, cellIndex]

/-- The converse: the other two outcomes, `OutOfBounds` and a commit, differ from this fault in
their record and in `ip`. -/
theorem overflows_of_exec {i : Instr} {s : State} {v : Nat} {op : Option Nat}
    (h : exec i s = .next (faulted s .cellOverflow 7 (some .B) v op)) :
    (∀ f ∈ instrIndices i, f.2 < s.memSize) ∧
      overflows s.cfg.cellW (instrResult i s.mem) = true := by
  rw [exec_eq, finish_eq] at h
  obtain ⟨f, _, _, he⟩ | ⟨hidx, he⟩ := checkIndices_cases (instrIndices i) s _
  · cases congrArg State.fault (Host.Outcome.next.inj (he.symm.trans h))
  · refine ⟨hidx, ?_⟩
    by_contra hfits
    have hnext := Host.Outcome.next.inj (he.symm.trans h)
    rw [if_neg hfits] at hnext
    have hip : s.ip + 1 = s.ip := congrArg State.ip hnext
    omega

/-- With a finite cell width, the fault is taken exactly when the indices name cells and the exact
result is `2^CELL_W` or more. -/
theorem exec_overflows_iff {i : Instr} {s : State} {bits : Nat} (hw : s.cfg.cellW = .finite bits) :
    (∃ op, exec i s = .next (faulted s .cellOverflow 7 (some .B) i.fieldB.toNat op)) ↔
      (∀ f ∈ instrIndices i, f.2 < s.memSize) ∧ 2 ^ bits ≤ instrResult i s.mem := by
  rw [← overflows_finite_iff, ← hw]
  exact ⟨fun ⟨_, h⟩ => overflows_of_exec h, fun ⟨hidx, hover⟩ => ⟨_, exec_overflows hidx hover⟩⟩

/-- An instruction whose result fits a cell does not take `CellOverflow`. -/
theorem exec_ne_overflow_of_fits {i : Instr} {s : State}
    (hfits : cellHolds s.cfg.cellW (instrResult i s.mem) = true) (v : Nat) (op : Option Nat) :
    exec i s ≠ .next (faulted s .cellOverflow 7 (some .B) v op) := by
  intro h
  have hover := (overflows_of_exec h).2
  rw [overflows_eq_not_cellHolds, hfits] at hover
  cases hover

/-! ## The results of the two shifts (42_combine_shift.md R141, R143, R144) -/

/-- A quotient of a cell's value is no greater than the value, so it fits a cell. -/
theorem cellHolds_read_div {s : State} (h : s.cellsFit) (a n : Nat) :
    cellHolds s.cfg.cellW (s.mem.read a / n) = true :=
  cellHolds_of_le (cellHolds_read h a) (Nat.div_le_self _ n)

/-- `x * 2^s` needs more than `n` bits exactly when `x ≠ 0` and `bitlen(x) + s > n`. -/
theorem two_pow_le_mul_two_pow_iff (n x s : Nat) :
    2 ^ n ≤ x * 2 ^ s ↔ x ≠ 0 ∧ n < Nat.size x + s := by
  by_cases hx : x = 0
  · simp [hx]
  · rw [← Nat.lt_size, ← Nat.shiftLeft_eq, Nat.size_shiftLeft hx]
    exact (and_iff_right hx).symm

/-! ## The three instructions -/

/-- The outcomes of an arity-3 instruction, each under its condition: the commit, the faults on B, C
and D, and `CellOverflow`. -/
theorem exec_of_arity_three {i : Instr} (s : State) (harity : i.mnemonic.arity = 3) :
    (i.fieldB.toNat < s.memSize → i.fieldC.toNat < s.memSize → i.fieldD.toNat < s.memSize →
      (∀ bits, s.cfg.cellW = .finite bits → instrResult i s.mem < 2 ^ bits) →
      exec i s = .next (committed s i.fieldB.toNat (instrResult i s.mem))) ∧
    (s.memSize ≤ i.fieldB.toNat →
      exec i s = .next (faulted s .outOfBounds 5 (some .B) i.fieldB.toNat none)) ∧
    (i.fieldB.toNat < s.memSize → s.memSize ≤ i.fieldC.toNat →
      exec i s = .next (faulted s .outOfBounds 5 (some .C) i.fieldC.toNat none)) ∧
    (i.fieldB.toNat < s.memSize → i.fieldC.toNat < s.memSize → s.memSize ≤ i.fieldD.toNat →
      exec i s = .next (faulted s .outOfBounds 5 (some .D) i.fieldD.toNat none)) ∧
    (∀ bits, i.fieldB.toNat < s.memSize → i.fieldC.toNat < s.memSize →
      i.fieldD.toNat < s.memSize → s.cfg.cellW = .finite bits → 2 ^ bits ≤ instrResult i s.mem →
      exec i s =
        .next (faulted s .cellOverflow 7 (some .B) i.fieldB.toNat (some i.mnemonic.code))) := by
  have hcode := code_of_arity_three harity
  have hidx (hb : i.fieldB.toNat < s.memSize) (hc : i.fieldC.toNat < s.memSize)
      (hd : i.fieldD.toNat < s.memSize) : ∀ f ∈ instrIndices i, f.2 < s.memSize := by
    rw [instrIndices_of_arity_three harity]
    exact forall_mem_indicesBCD.mpr ⟨hb, hc, hd⟩
  refine ⟨fun hb hc hd hfits => exec_commits (hidx hb hc hd) ((cellHolds_iff _ _).mpr hfits),
    exec_faults_on_B, exec_faults_on_C hcode.1, exec_faults_on_D hcode,
    fun bits hb hc hd hw hover => exec_overflows (hidx hb hc hd) ?_⟩
  rw [hw]
  exact (overflows_finite_iff _ _).mpr hover

/-- Settles O22. -/
theorem storeMemoryResult : Obligations.StoreMemoryResult :=
  fun s b c d => exec_of_arity_three (i := .storeMemory b c d) s rfl

/-- Settles O23: the quotient of a cell's value fits a cell, so the index faults are the only
ones. -/
theorem shiftRightResult : Obligations.ShiftRightResult := by
  intro s b c d
  obtain ⟨hcommit, hB, hC, hD, _⟩ := exec_of_arity_three (i := .shiftRight b c d) s rfl
  refine ⟨fun hfit hb hc hd => hcommit hb hc hd ?_, hB, hC, hD⟩
  exact (cellHolds_iff _ _).mp (cellHolds_read_div hfit _ _)

/-- Settles O24. -/
theorem shiftLeftResult : Obligations.ShiftLeftResult :=
  fun s b c d => exec_of_arity_three (i := .shiftLeft b c d) s rfl

/-- Settles O25: an immediate, a copied cell and a quotient of a cell fit; a sum and a left shift
overflow by the width check alone. -/
theorem overflowOnlyFromAddAndShiftLeft : Obligations.OverflowOnlyFromAddAndShiftLeft := by
  intro s bits b c d hw hbits hfit
  have hwf : s.cfg.cellW.wf = true := by
    rw [hw]
    exact decide_eq_true hbits
  refine ⟨exec_ne_overflow_of_fits (cellHolds_immediate hwf c),
    exec_ne_overflow_of_fits (cellHolds_read hfit c.toNat),
    exec_ne_overflow_of_fits (cellHolds_read_div hfit c.toNat _), ?storeMemory, ?shiftLeft⟩
  case storeMemory =>
    exact (exec_overflows_iff (i := .storeMemory b c d) hw).trans
      (and_congr forall_mem_indicesBCD Iff.rfl)
  case shiftLeft =>
    exact (exec_overflows_iff (i := .shiftLeft b c d) hw).trans
      (and_congr forall_mem_indicesBCD (two_pow_le_mul_two_pow_iff _ _ _))

/-- Settles O27: `x < 2^x`, so the quotient is 0. -/
theorem shiftRightByItselfGivesZero : Obligations.ShiftRightByItselfGivesZero := by
  intro s b c d hcd hfit hb hc _
  have hzero : s.mem.read c.toNat / 2 ^ s.mem.read d.toNat = 0 := by
    rw [← hcd]
    exact Nat.div_eq_of_lt Nat.lt_two_pow_self
  exact ⟨_, (shiftRightResult s b c d).1 hfit hb hc (hcd ▸ hc),
    (Memory.read_write_same s.mem _ _).trans hzero⟩

end Sys2Proof.Machine
end

section
/-! Proofs of the family 60_exceptions.md: the numbers of the fault kinds and of their records (R161), and
the record of a failed dump (R162). -/

namespace Sys2Proof.Machine

/-! ## The fault codes (60_exceptions.md R161) -/

/-- Settles O47: the table of R161 is `FaultKind.code`, and every record is built with the code of its
own kind. -/
theorem faultCodes : Obligations.FaultCodes := by
  refine ⟨rfl, rfl, rfl, rfl, rfl, rfl, rfl, rfl, rfl, fun _ => rfl, ?toolchain⟩
  case toolchain =>
    refine ⟨fun _ _ => rfl, fun _ _ => rfl, fun _ => rfl, ?machineAndDump⟩
    case machineAndDump =>
      exact ⟨fun _ => rfl, fun _ _ => rfl, fun _ _ _ => rfl, RangeError.record_code,
        fun _ _ _ => rfl, fun _ _ => rfl⟩

/-! ## The record of a failed dump (60_exceptions.md R162; 40_execution.md R119) -/

/-- The only error a dump of the cells answers holds the two arguments and `mem_size`. -/
theorem dumpCells_error {s : State} {first stop : Int} {e : RangeError}
    (h : dumpCells s first stop = .error e) :
    e = { first := first, stop := stop, memSize := s.memSize } := by
  obtain ⟨_, hcells⟩ | ⟨_, hcells⟩ := dumpCells_cases s first stop
  · rw [hcells] at h
    nomatch h
  · exact Except.error.inj (h.symm.trans hcells)

/-- What the dump port answers, where it does not refuse, is the dump of the cells. -/
theorem dumpCells_of_dump_ok {s : State} {first stop : Int}
    {r : Except RangeError (List DataCell)} (h : dump s first stop = .ok r) :
    dumpCells s first stop = r := by
  unfold dump at h
  split_ifs at h
  exact Except.ok.inj h

/-- Settles O52. -/
theorem dumpErrorRecordAsTabled : Obligations.DumpErrorRecordAsTabled := by
  intro s first stop e h
  obtain rfl := dumpCells_error (dumpCells_of_dump_ok h)
  exact ⟨rfl, rfl⟩

end Sys2Proof.Machine
end
